-- ==== Sys2Proof/Word.lean ====
section
/-! DEFINITION. The widths of the spec (10_state.md R47, 30_encoding.md R80): bytes, the words of the
binary formats, colours, and the opaque error token. Plain types, no operations. -/

namespace Sys2Proof

/-- An 8-bit unsigned value (00_scope.md section 6). -/
abbrev Byte := BitVec 8

/-- A word of `F-CMD48` (30_encoding.md R86). -/
abbrev CmdWord := BitVec 48

/-- A word of `F-COLOR24` (30_encoding.md R85). -/
abbrev ColourWord := BitVec 24

/-- A word of `F-XCVR9` (30_encoding.md R87). -/
abbrev XcvrWord := BitVec 9

/-- A word of `F-CHAN4`, the 32 bits `w0 ++ w1 ++ w2 ++ w3` (30_encoding.md R82). -/
abbrev Chan4Word := BitVec 32

/-- A colour `(r, g, b)`: "an opaque triple of 8-bit channel values (red, green, blue)" (10_state.md R37). -/
structure Colour where
  r : Byte
  g : Byte
  b : Byte
  deriving DecidableEq, Repr

/-- A value of `E`, the transceiver's error type (00_scope.md R11). The spec leaves `E` uninterpreted; the
model has a token for each error value and never looks inside one.
DESIGN CHOICE (log 3), safe. -/
structure ChannelError where
  token : Nat
  deriving DecidableEq, Repr

/-- One operation on the transceiver port (43_sequencer.md R179, R180). -/
inductive XcvrOp where
  /-- `SEND(b)`: hand one byte to the transceiver. -/
  | send (b : Byte)
  /-- `RECV`: take one byte from the transceiver's receive path. -/
  | recv
  deriving DecidableEq, Repr

end Sys2Proof
end

