-- ==== Sys2Proof/Config.lean ====
section
/-! DEFINITION. The parameters of one instance (00_scope.md section 4). None changes while the block
lives (10_state.md R35, R46). They stand in `State.cfg` (log 1), so that a statement about every state
is a statement about every instance. The spec gives no instruction an undefined value after which the
machine goes on, so there is no opaque free value here; what the environment chooses (the transceiver's
answers) is plain data in `State.xcvr` (log 2). -/

namespace Sys2Proof

/-- The build-time strap `VARIANT` (00_scope.md R3): prerendering or streaming. -/
inductive Variant where
  | P
  | S
  deriving DecidableEq, Repr

/-- The parameters a model takes (00_scope.md section 4). -/
structure Config where
  /-- `VARIANT` (R3). -/
  variant : Variant
  /-- `N`, the pixel count, any natural number (R7). -/
  n : Nat
  /-- `IDLE_PAD` (R8). -/
  idlePad : Bool
  /-- `LEAD_PAD_LEN` (R9). -/
  leadPadLen : Nat
  /-- `TRAIL_PAD_LEN` (R9). -/
  trailPadLen : Nat
  /-- `ENC_CAP`, the capacity of `enc`, variant `S` only (R10). -/
  encCap : Nat
  deriving DecidableEq, Repr

namespace Config

/-- The literal 140 of both pads (R9). -/
def padLen : Nat := 140

/-- `IDX_W`, the width of the command word's index field (R13). -/
def idxWidth : Nat := 16

/-- `F_MIN` and `F_MAX` in hertz, "roughly 2.0–3.8 MHz" (R12). No step reads them. -/
def fMinHz : Nat := 2000000
@[inherit_doc fMinHz]
def fMaxHz : Nat := 3800000

/-- An instance with the values the spec fixes: both pads 140 (R9), `ENC_CAP = 12 * N` (R10). -/
def ofStraps (v : Variant) (n : Nat) (pad : Bool) : Config :=
  { variant := v, n := n, idlePad := pad, leadPadLen := padLen, trailPadLen := padLen, encCap := 12 * n }

/-- The instance that `State.reset` describes. `VARIANT`, `N` and `IDLE_PAD` are open in the spec: the model
takes the document's own scenario (41_prerender_store.md R129: variant P, 3 pixels, idle pad disabled).
DESIGN CHOICE (log 1), unsafe for a claim about the reset state alone. -/
def atReset : Config := ofStraps .P 3 false

/-- The slots of `chan`, `3 * N` (R7, 10_state.md R22). -/
def slots (c : Config) : Nat := 3 * c.n

/-- `P` of 43_sequencer.md R171: the lead-pad cycles, `LEAD_PAD_LEN if IDLE_PAD else 0`. -/
def leadCycles (c : Config) : Nat := if c.idlePad then c.leadPadLen else 0

/-- `Q` of 43_sequencer.md R171: the trailing-pad cycles. -/
def trailCycles (c : Config) : Nat := c.trailPadLen

/-- `T = 2 * (1 + P + L + Q)`, the operations of a transmission of `L` payload bytes (43_sequencer.md R171). -/
def opCount (c : Config) (payloadLen : Nat) : Nat :=
  2 * (1 + c.leadCycles + payloadLen + c.trailCycles)

end Config

end Sys2Proof
end

