-- ==== Sys2Proof/Machine/BitEncoder.lean ====
section
/-! DEFINITION. The Bit Encoder as a function (40_encoder.md R100 to R112): "a combinational function of 8 input
bits and 32 output bits with no state and no clock" (R111). Both stores use it (R110). -/

namespace Sys2Proof.Encoder

/-- The fixed lookup `LUT` on the 2-bit group `(h, l)` (40_encoder.md R102). -/
def lut (h l : Bool) : Byte :=
  match h, l with
  | false, false => 0x88
  | false, true => 0x8E
  | true, false => 0xE8
  | true, true => 0xEE

/-- `w_k`: the waveform byte of group `k`, the source bits `c[7 - 2k]` and `c[6 - 2k]` (R101, R103). -/
def waveOf (c : Byte) (k : Nat) : Byte := lut (c.getLsbD (7 - 2 * k)) (c.getLsbD (6 - 2 * k))

/-- `ENCODE(c)`: four waveform bytes, `w0` first, most significant group first (R101, R103). -/
def encode (c : Byte) : List Byte := [waveOf c 0, waveOf c 1, waveOf c 2, waveOf c 3]

/-- The bit cell of one source bit (R105): `0b1000` for 0, `0b1110` for 1. -/
def cell (b : Bool) : BitVec 4 := if b then 0b1110 else 0b1000

/-- `F-WAVE`: is this byte one of the four waveform bytes (30_encoding.md R81, R93)? -/
def isWave (b : Byte) : Bool := b == 0x88 || b == 0x8E || b == 0xE8 || b == 0xEE

/-- `F-CHAN4` of a channel byte: `w0 ++ w1 ++ w2 ++ w3` as one 32-bit word (30_encoding.md R82). -/
def chan4 (c : Byte) : Chan4Word := waveOf c 0 ++ waveOf c 1 ++ waveOf c 2 ++ waveOf c 3

/-- The channel byte read back from an `F-CHAN4` word: bit `7 - m` of the byte is bit `30 - 4m` of the word,
which is `c[7 - 2k] = w_k[6]` and `c[6 - 2k] = w_k[2]` (40_encoder.md R108). -/
def chan4Source (w : Chan4Word) : Byte :=
  BitVec.ofBool (w.getLsbD 30) ++ BitVec.ofBool (w.getLsbD 26) ++ BitVec.ofBool (w.getLsbD 22) ++
    BitVec.ofBool (w.getLsbD 18) ++ BitVec.ofBool (w.getLsbD 14) ++ BitVec.ofBool (w.getLsbD 10) ++
    BitVec.ofBool (w.getLsbD 6) ++ BitVec.ofBool (w.getLsbD 2)

/-- `F-PIXEL12`: the wire form of one pixel, green, red, blue (30_encoding.md R83). -/
def pixel12 (c : Colour) : List Byte := encode c.g ++ encode c.r ++ encode c.b

end Sys2Proof.Encoder
end

