-- ==== Sys2Proof/Syntax.lean ====
section
/-! DEFINITION. One constructor per row of spec/opcode_table.json, and the words an instruction is made of. -/

namespace Sys2Proof

/-- The instructions: the ten commands (30_encoding.md R97), the reserved command words (R94), the waveform
bytes (R81), the Bit Encoder, the two transceiver operations and the transmission procedure. Indices are
natural numbers, as the abstract commands take them (00_scope.md R13). -/
inductive Instr where
  /-- `P.CONSTRUCT` (41_prerender_store.md R120). -/
  | pConstruct
  /-- `P.READ_RAW idx` (R121). -/
  | pReadRaw (idx : Nat)
  /-- `P.READ_COLOR i` (R122). -/
  | pReadColor (i : Nat)
  /-- `P.SET_COLOR i, (r, g, b)` (R123). -/
  | pSetColor (i : Nat) (c : Colour)
  /-- `P.TRANSMIT` (R124). -/
  | pTransmit
  /-- `S.CONSTRUCT` (42_streaming_store.md R140). -/
  | sConstruct
  /-- `S.READ_RAW idx` (R141). -/
  | sReadRaw (idx : Nat)
  /-- `S.WRITE_RAW idx, v` (R142). -/
  | sWriteRaw (idx : Nat) (v : Byte)
  /-- `S.READ_COLOR i`, also called `led_color` (R143). -/
  | sReadColor (i : Nat)
  /-- `S.WRITE_ALL cs` with its finite list of colours (R144). -/
  | sWriteAll (cs : List Colour)
  /-- `RESERVED.OP`: any reserved `F-CMD48` word (30_encoding.md R94). -/
  | reservedOp (w : CmdWord)
  /-- `WAVE.00`, the waveform byte of the group 00 (40_encoder.md R102). -/
  | wave00
  /-- `WAVE.01`. -/
  | wave01
  /-- `WAVE.10`. -/
  | wave10
  /-- `WAVE.11`. -/
  | wave11
  /-- `WAVE`, the general pattern `1hh01ll0` of a waveform byte (30_encoding.md R81). -/
  | wave (h l : Bool)
  /-- `ENCODE`, the Bit Encoder on one channel byte (40_encoder.md R103). -/
  | encodeChan (c : Byte)
  /-- `XCVR.SEND b` (43_sequencer.md R179). -/
  | xcvrSend (b : Byte)
  /-- `XCVR.RECV` (R180). -/
  | xcvrRecv
  /-- `SEQ.RUN payload` (R182). -/
  | seqRun (payload : List Byte)
  deriving DecidableEq, Repr

/-- What an instruction is read from: the formats of 30_encoding.md R80 that carry one. A command word stands
with the colour words that belong to it (R88). -/
inductive Words where
  /-- `F-CMD48` and its `F-COLOR24` words (R86, R88). -/
  | cmd (w : CmdWord) (colours : List ColourWord)
  /-- `F-XCVR9` (R87). -/
  | xcvr (w : XcvrWord)
  /-- `F-WAVE` (R81). -/
  | wave (b : Byte)
  /-- `F-CHAN4` (R82). -/
  | chan4 (w : Chan4Word)
  /-- `F-FRAME`, the bytes one transmission sends (R84). -/
  | frame (bs : List Byte)
  deriving DecidableEq, Repr

end Sys2Proof
end

