-- ==== Sys2Proof/Decode.lean ====
section
/-! DEFINITION. From words to instructions and back (30_encoding.md). Fields are pulled out here, once. `decode` is
total on any words and rejects by name; `encode` is written from the same tables. -/

namespace Sys2Proof

/-- Why words are no instruction. A command word is never rejected here: a reserved one IS the row `RESERVED.OP`. -/
inductive DecodeError where
  /-- A byte that is none of the four waveform bytes (30_encoding.md R81, R93). -/
  | notWave
  /-- A 32-bit word that is no channel byte's `F-CHAN4` form (R82). -/
  | notChan4
  /-- An `F-XCVR9` word `0x101` to `0x1FF` (93_implementation_defined.md U16). -/
  | reservedXcvr
  /-- Bytes that are no `F-FRAME` of this instance (R84). -/
  | notFrame
  /-- The colour words beside a command word are not the number it calls for (R88). -/
  | colourCount
  deriving DecidableEq, Repr

/-! ### `F-CMD48` (R86) -/

/-- Bits 47..44. -/
def cmdOp (w : CmdWord) : BitVec 4 := w.extractLsb' 44 4
/-- Bits 43..40, which must be 0. -/
def cmdRsv (w : CmdWord) : BitVec 4 := w.extractLsb' 40 4
/-- Bits 39..24, an unsigned number used as it stands (R89). -/
def cmdIdx (w : CmdWord) : BitVec 16 := w.extractLsb' 24 16
/-- Bits 23..0. -/
def cmdData (w : CmdWord) : BitVec 24 := w.extractLsb' 0 24

/-- The command word with these fields and `rsv = 0` (R86). -/
def cmdWord (op : BitVec 4) (idx : BitVec 16) (data : BitVec 24) : CmdWord :=
  BitVec.ofNat 48 (2 ^ 44 * op.toNat + 2 ^ 24 * idx.toNat + data.toNat)

/-- Is this word reserved (R94)? `op` in `7..F`, or `rsv` not 0, or a must-be-zero part of `idx` or `data` (the R97
table) not 0. A function of the word alone, the same in both variants. -/
def isReserved (w : CmdWord) : Bool :=
  cmdRsv w != 0 ||
    match (cmdOp w).toNat with
    | 0 => cmdIdx w != 0 || cmdData w != 0
    | 1 => cmdData w != 0
    | 2 => (cmdData w).extractLsb' 8 16 != 0
    | 3 => cmdData w != 0
    | 4 => false
    | 5 => cmdIdx w != 0 || cmdData w != 0
    | 6 => cmdData w != 0
    | _ => true

/-- How many `F-COLOR24` words follow a command word: "A decoder tells the length from `op` and `idx` alone" (R88). -/
def colourCount (w : CmdWord) : Nat := if cmdOp w = 6 then (cmdIdx w).toNat else 0

/-- `F-COLOR24` to a colour: bits 23..16 red, 15..8 green, 7..0 blue (R85). -/
def unpackColour (w : ColourWord) : Colour :=
  { r := w.extractLsb' 16 8, g := w.extractLsb' 8 8, b := w.extractLsb' 0 8 }

/-- A colour to `F-COLOR24` (R85). -/
def packColour (c : Colour) : ColourWord := BitVec.ofNat 24 (2 ^ 16 * c.r.toNat + 2 ^ 8 * c.g.toNat + c.b.toNat)

/-- The command a word stands for under the strap `VARIANT` (R94, R95, R97). The strap picks the row where both variants
have the `op`; where only one has it, the word is that row's, and the row refuses itself in the other variant. -/
def decodeCmd (v : Variant) (w : CmdWord) (colours : List ColourWord) : Instr :=
  if isReserved w then .reservedOp w
  else
    match (cmdOp w).toNat with
    | 0 => match v with
      | .P => .pConstruct
      | .S => .sConstruct
    | 1 => match v with
      | .P => .pReadRaw (cmdIdx w).toNat
      | .S => .sReadRaw (cmdIdx w).toNat
    | 2 => .sWriteRaw (cmdIdx w).toNat ((cmdData w).extractLsb' 0 8)
    | 3 => match v with
      | .P => .pReadColor (cmdIdx w).toNat
      | .S => .sReadColor (cmdIdx w).toNat
    | 4 => .pSetColor (cmdIdx w).toNat (unpackColour (cmdData w))
    | 5 => .pTransmit
    | 6 => .sWriteAll (colours.map unpackColour)
    | _ => .reservedOp w

/-! ### The other formats -/

/-- `F-WAVE` (R81). The general row `WAVE` has the words of the four rows `WAVE.xx`, which the decoder gives (log 13). -/
def decodeWave (b : Byte) : Except DecodeError Instr :=
  if b = 0x88 then .ok .wave00
  else if b = 0x8E then .ok .wave01
  else if b = 0xE8 then .ok .wave10
  else if b = 0xEE then .ok .wave11
  else .error .notWave

/-- `F-CHAN4` (R82): the source byte is read off the word and the word must be its encoding. -/
def decodeChan4 (w : Chan4Word) : Except DecodeError Instr :=
  if Encoder.chan4 (Encoder.chan4Source w) = w then .ok (.encodeChan (Encoder.chan4Source w)) else .error .notChan4

/-- `F-XCVR9` of an operation (R87). -/
def xcvrWord : XcvrOp → XcvrWord
  | .send b => BitVec.ofNat 9 b.toNat
  | .recv => 0x100

/-- `F-XCVR9` (R87): bit 8 = 0 is `SEND`; `0x100` is `RECV`; the rest is never issued. -/
def decodeXcvr (w : XcvrWord) : Except DecodeError Instr :=
  if w.toNat < 256 then .ok (.xcvrSend (w.extractLsb' 0 8))
  else if w = 0x100 then .ok .xcvrRecv
  else .error .reservedXcvr

/-- `F-FRAME` of a payload (R84): lead byte, optional lead pad, payload, trailing pad. -/
def frameBytes (cfg : Config) (payload : List Byte) : List Byte :=
  0x00 :: (List.replicate cfg.leadCycles 0x00 ++ payload ++ List.replicate cfg.trailCycles 0x00)

/-- The payload between the pads of a frame of this length (R84). -/
def framePayload (cfg : Config) (bs : List Byte) : List Byte :=
  (bs.drop (1 + cfg.leadCycles)).take (bs.length - (1 + cfg.leadCycles + cfg.trailCycles))

/-- `F-FRAME` (R84), with a payload of waveform bytes (R93). -/
def decodeFrame (cfg : Config) (bs : List Byte) : Except DecodeError Instr :=
  let p := framePayload cfg bs
  if frameBytes cfg p = bs ∧ p.all Encoder.isWave then .ok (.seqRun p) else .error .notFrame

/-- The instruction that words stand for in this instance; total, and a rejection has a name. -/
def decode (cfg : Config) : Words → Except DecodeError Instr
  | .cmd w colours => if colours.length = colourCount w then .ok (decodeCmd cfg.variant w colours) else .error .colourCount
  | .xcvr w => decodeXcvr w
  | .wave b => decodeWave b
  | .chan4 w => decodeChan4 w
  | .frame bs => decodeFrame cfg bs

/-! ### The encoder -/

/-- The words of an instruction, from the table of R97 and the formats of R81 to R87. -/
def encode (cfg : Config) : Instr → Words
  | .pConstruct => .cmd (cmdWord 0 0 0) []
  | .pReadRaw idx => .cmd (cmdWord 1 (BitVec.ofNat 16 idx) 0) []
  | .pReadColor i => .cmd (cmdWord 3 (BitVec.ofNat 16 i) 0) []
  | .pSetColor i c => .cmd (cmdWord 4 (BitVec.ofNat 16 i) (packColour c)) []
  | .pTransmit => .cmd (cmdWord 5 0 0) []
  | .sConstruct => .cmd (cmdWord 0 0 0) []
  | .sReadRaw idx => .cmd (cmdWord 1 (BitVec.ofNat 16 idx) 0) []
  | .sWriteRaw idx v => .cmd (cmdWord 2 (BitVec.ofNat 16 idx) (v.setWidth 24)) []
  | .sReadColor i => .cmd (cmdWord 3 (BitVec.ofNat 16 i) 0) []
  | .sWriteAll cs => .cmd (cmdWord 6 (BitVec.ofNat 16 cs.length) 0) (cs.map packColour)
  | .reservedOp w => .cmd w (List.replicate (colourCount w) 0)
  | .wave00 => .wave 0x88
  | .wave01 => .wave 0x8E
  | .wave10 => .wave 0xE8
  | .wave11 => .wave 0xEE
  | .wave h l => .wave (Encoder.lut h l)
  | .encodeChan c => .chan4 (Encoder.chan4 c)
  | .xcvrSend b => .xcvr (xcvrWord (.send b))
  | .xcvrRecv => .xcvr (xcvrWord .recv)
  | .seqRun p => .frame (frameBytes cfg p)

/-- What the decoder reads from an instruction's words under the strap `VARIANT`: the two variants share the words of
`CONSTRUCT`, `READ_RAW` and `READ_COLOR` (R97), and `WAVE` those of the four rows `WAVE.xx` (log 13). -/
def Instr.asRead (v : Variant) : Instr → Instr
  | .pConstruct => match v with
    | .P => .pConstruct
    | .S => .sConstruct
  | .sConstruct => match v with
    | .P => .pConstruct
    | .S => .sConstruct
  | .pReadRaw idx => match v with
    | .P => .pReadRaw idx
    | .S => .sReadRaw idx
  | .sReadRaw idx => match v with
    | .P => .pReadRaw idx
    | .S => .sReadRaw idx
  | .pReadColor i => match v with
    | .P => .pReadColor i
    | .S => .sReadColor i
  | .sReadColor i => match v with
    | .P => .pReadColor i
    | .S => .sReadColor i
  | .wave false false => .wave00
  | .wave false true => .wave01
  | .wave true false => .wave10
  | .wave true true => .wave11
  | .pSetColor i c => .pSetColor i c
  | .pTransmit => .pTransmit
  | .sWriteRaw idx v' => .sWriteRaw idx v'
  | .sWriteAll cs => .sWriteAll cs
  | .reservedOp w => .reservedOp w
  | .wave00 => .wave00
  | .wave01 => .wave01
  | .wave10 => .wave10
  | .wave11 => .wave11
  | .encodeChan c => .encodeChan c
  | .xcvrSend b => .xcvrSend b
  | .xcvrRecv => .xcvrRecv
  | .seqRun p => .seqRun p

/-! ### Words numbered as spec/opcode_table.json numbers them -/

/-- `k` bytes of a number, the first byte in bits 7..0. -/
def bytesOfNat : Nat → Nat → List Byte
  | 0, _ => []
  | k + 1, w => BitVec.ofNat 8 w :: bytesOfNat k (w / 256)

/-- The words a table row of `nbits` bits stands for: 48 is `F-CMD48` with its colour words zero, 32 is `F-CHAN4`, 8 is
`F-WAVE`, 9 (16 in whole bytes) is `F-XCVR9`, any other whole number of bytes is a byte string, `F-FRAME`. -/
def tableWords (nbits w : Nat) : Option Words :=
  if nbits = 48 then some (.cmd (BitVec.ofNat 48 w) (List.replicate (colourCount (BitVec.ofNat 48 w)) 0))
  else if nbits = 32 then some (.chan4 (BitVec.ofNat 32 w))
  else if nbits = 8 then some (.wave (BitVec.ofNat 8 w))
  else if nbits = 9 ∨ nbits = 16 then (if w < 512 then some (.xcvr (BitVec.ofNat 9 w)) else none)
  else if nbits % 8 = 0 then some (.frame (bytesOfNat (nbits / 8) w))
  else none

/-- The instruction the decoder reads from a table row's bits, in the instance of `State.reset`. Where the two variants
share a word, this is the row of variant `P` (log 13). -/
def decodeTableWord (nbits w : Nat) : Option Instr :=
  match tableWords nbits w with
  | some ws => (decode Config.atReset ws).toOption
  | none => none

end Sys2Proof
end

