-- ==== Sys2Proof/Machine/State.lean ====
section
/-! DEFINITION. The state as plain data (10_state.md R20), the reasons a step can stop, and the state after reset. -/

namespace Sys2Proof.Machine

/-- One byte space, `chan` or `enc`, as a list of cells in one canonical form (`Memory.wf`): addresses strictly rising
and no cell holding what an unlisted address reads as, `0x00` (10_state.md R40, R42; log 16). -/
abbrev Memory := List Host.Cell

/-! ### The sequencer position (10_state.md R30, R31) -/

/-- The five non-idle phases (43_sequencer.md R183). -/
inductive Phase where
  | leadByteSent
  | optionalIdlePad
  | payloadStreaming
  | trailingPad
  | draining
  deriving DecidableEq, Repr

/-- `TX` when the next operation is a `SEND`, `RX` when it is a `RECV` (10_state.md R30). -/
inductive Half where
  | tx
  | rx
  deriving DecidableEq, Repr

/-- `seq`: `Idle` or `(phase, cnt, half)` (10_state.md R30). -/
inductive Seq where
  | idle
  | pos (phase : Phase) (cnt : Nat) (half : Half)
  deriving DecidableEq, Repr

/-- Where the running transmission's payload comes from (43_sequencer.md R170: "parameterized by 'payload source'"). -/
inductive Source where
  /-- `P.TRANSMIT`: every slot of `chan`, encoded as it is sent (41_prerender_store.md R125). -/
  | chan
  /-- `S.WRITE_ALL`: the filled prefix of `enc` (42_streaming_store.md R148). -/
  | enc
  /-- `SEQ.RUN` on a list (43_sequencer.md R170). -/
  | given (payload : List Byte)
  deriving DecidableEq, Repr

/-! ### How a command ends (00_scope.md R16) -/

/-- What a returned command answers (30_encoding.md R99). -/
inductive Response where
  /-- `CONSTRUCT`, `P.SET_COLOR`, `S.WRITE_RAW`. -/
  | nothing
  /-- `READ_RAW`. -/
  | byte (v : Byte)
  /-- `READ_COLOR`. -/
  | colour (c : Colour)
  /-- `P.TRANSMIT`, `S.WRITE_ALL` (and `SEQ.RUN`): success. -/
  | ok
  /-- `P.TRANSMIT`, `S.WRITE_ALL` (and `SEQ.RUN`): the transceiver's error value, unchanged (60_exceptions.md R200). -/
  | err (e : ChannelError)
  /-- The output bytes of the Bit Encoder, for the rows `ENCODE` and `WAVE`; no host command gives it (40_encoder.md R111;
  log 12). -/
  | waves (ws : List Byte)
  deriving DecidableEq, Repr

/-- Why a command is refused (60_exceptions.md X1 to X3). The command is not executed, nothing changes, and the host goes
on (00_scope.md R16, log 5). -/
inductive RefuseReason where
  /-- X1, raised by a reserved command word (30_encoding.md R94). -/
  | reservedEncoding
  /-- X2, raised by a command of the other variant (R95). -/
  | notInVariant
  /-- X3, raised by any command but `CONSTRUCT` before the first `CONSTRUCT` (R96). -/
  | notConstructed
  deriving DecidableEq, Repr

/-- How the last command ended, or that a transmitting command is still running (log 9). -/
inductive Ended where
  | running
  | returned (r : Response)
  | refused (r : RefuseReason)
  deriving DecidableEq, Repr

/-! ### The transceiver as an oracle (60_exceptions.md R221) -/

/-- One answer of the transceiver: `ok` (for a `RECV`, with the byte `v`), `err(e)`, or no answer ever
(43_sequencer.md R179, R180). -/
inductive Answer where
  | ok (v : Byte)
  | err (e : ChannelError)
  | never
  deriving DecidableEq, Repr

/-- The configuration the host must have given the transceiver (70_reset_and_hazards.md R236 to R238). Not enforced, not
checked, read by no step. -/
structure Link where
  /-- The serial clock rate in hertz (R236). -/
  clockHz : Nat
  /-- The clock line idles low (R237). -/
  idleLow : Bool
  /-- Data is sampled on the first clock transition (R237). -/
  firstEdge : Bool
  /-- Bit 7 of a byte goes out first (20_memory.md R56). -/
  msbFirst : Bool
  deriving DecidableEq, Repr

/-- The transceiver: the answers it will give, in order, then one answer for every later operation; and its link. It is
the block's environment, not its state (10_state.md R29). Every oracle, history or not, is some such list along any one run
(`Obligations.EveryOracleIsAScript`; log 2). -/
structure Xcvr where
  script : List Answer
  rest : Answer
  link : Link
  deriving DecidableEq, Repr

/-- What the transceiver answered to an operation. -/
inductive Reply where
  /-- `ok` to a `SEND`. -/
  | ok
  /-- `ok(v)` to a `RECV`. -/
  | okByte (v : Byte)
  /-- `err(e)`. -/
  | err (e : ChannelError)
  deriving DecidableEq, Repr

/-- One entry of the ghost list `trace` (10_state.md R39): an operation with its answer. -/
structure Event where
  op : XcvrOp
  reply : Reply
  deriving DecidableEq, Repr

/-! ### The state -/

/-- The block: its state `(constructed, chan, enc, cursor, seq)` (10_state.md R20), the instance's parameters, the ghost `trace`,
and what is in progress. The transceiver is no part of it (10_state.md R29): the block issues operations (`Block.issues`), and
the answers are an input of its step (`Block.respond`). -/
structure Block where
  /-- The instance's parameters; no step changes them (10_state.md R35; log 1). -/
  cfg : Config
  /-- A store exists (10_state.md R28). While it does not, the buffers' contents have no meaning (R44; log 15). -/
  constructed : Bool
  /-- The raw channel buffer (10_state.md R22). -/
  chan : Memory
  /-- The encoded scratch buffer, variant `S` (10_state.md R25). -/
  enc : Memory
  /-- The fill cursor, variant `S` (10_state.md R26). -/
  cursor : Nat
  /-- The sequencer position (10_state.md R30). -/
  seq : Seq
  /-- The command body in progress (60_exceptions.md R206), with its payload source (log 9). -/
  run : Option Source
  /-- How the last command ended (00_scope.md R15, R16). -/
  last : Ended
  /-- Ghost: the operations of the running or last transmission with their answers (10_state.md R39). -/
  trace : List Event
  deriving DecidableEq, Repr

/-- The closed machine: the block, and beside it the inputs it takes its next step from, which belong to the other two parties of
00_scope.md R14, the transceiver and the host. -/
structure State extends Block where
  /-- The transceiver with its coming answers (60_exceptions.md R221; log 2). Only `State.transceive` reads it, and gives its
  answer to the block. -/
  xcvr : Xcvr
  /-- Command words the host gives, first one first (30_encoding.md R86; log 4). -/
  cmds : List CmdWord
  /-- The colour stream (30_encoding.md R88; log 4). -/
  colours : List ColourWord
  /-- Words presented to one component, not to the command port (log 12). -/
  units : List Words
  deriving DecidableEq, Repr

/-- The reasons a step stops. F1 to F5 are violated preconditions, "undefined behavior by contract" (60_exceptions.md
R203 to R207): nothing is defined afterwards. `stalled` is no fault but the stuck state H1 (R208), kept apart by
`Fault.isStuck`. All are safe: nothing is claimed of what follows. -/
inductive Fault where
  /-- F1 (R203), raised by `P.READ_RAW`, `S.READ_RAW`, `S.WRITE_RAW`: `idx >= 3*N`. Safe. -/
  | slotIndexOutOfRange
  /-- F2 (R204), raised by `P.READ_COLOR`, `P.SET_COLOR`, `S.READ_COLOR`: `i >= N`. Safe. -/
  | pixelIndexOutOfRange
  /-- F3 (R205), raised by `S.WRITE_ALL`: more than `N` colours. Safe. -/
  | tooManyColors
  /-- F4 (R205), raised by `S.WRITE_ALL`: an append past `ENC_CAP`. Safe. -/
  | encOverflow
  /-- F5 (R206), raised by a command given while another runs, and by a transceiver operation that is not the sequencer's
  (93_implementation_defined.md U4; log 11). Safe. -/
  | concurrentAccess
  /-- H1 (R208), raised by `XCVR.SEND` and `XCVR.RECV` when the transceiver never answers: the machine waits for ever in the
  state the step was taken from. Safe. -/
  | stalled
  deriving DecidableEq, Repr

/-- The reasons a step has no meaning. -/
inductive Refusal where
  /-- An instruction that has no meaning yet; no arm of `exec` uses it. Safe. -/
  | notModelled (mnemonic : String)
  /-- Raised by `step` for words at a component that are none of the table's (93_implementation_defined.md U16); a command
  word never raises it. Safe. -/
  | notWords (e : DecodeError)
  deriving DecidableEq, Repr

/-- What a step or a meaning answers. -/
abbrev Result := Host.Outcome State Fault Refusal

/-- A link inside the contract of 70_reset_and_hazards.md R236 to R238, at the 3.0 MHz of R252's example.
DESIGN CHOICE (log 2); no step reads it. -/
def Link.atReset : Link := { clockHz := 3000000, idleLow := true, firstEdge := true, msbFirst := true }

/-- The reference oracle `AlwaysOk(v)` (60_exceptions.md R224), for tests only. -/
def Xcvr.alwaysOk (v : Byte) (l : Link) : Xcvr := { script := [], rest := .ok v, link := l }

/-- The reference oracle `FailAt(j, e)` (60_exceptions.md R224), for tests only: to operations 0 to `j - 1` of the next
transmission it answers as `AlwaysOk(0x00)`, to operation `j` it answers `err(e)`. The rule says nothing of later operations:
they are answered by the transceiver `after`, any one. -/
def Xcvr.failAt (j : Nat) (e : ChannelError) (after : Xcvr) : Xcvr :=
  { after with script := List.replicate j (.ok 0x00) ++ .err e :: after.script }

/-- The machine right after reset, which is `CONSTRUCT` (70_reset_and_hazards.md R230): `chan` and `enc` all zero (10_state.md
R40, R42), `cursor = 0` (R41), `seq = Idle` (R43), `constructed = 1` (R44), nothing sent (R45). The instance, the
transceiver and the model's own fields are DESIGN CHOICES (logs 1, 2, 9), unsafe for a claim about this one state. -/
def State.reset : State :=
  { cfg := Config.atReset
    constructed := true
    chan := []
    enc := []
    cursor := 0
    seq := .idle
    run := none
    last := .returned .nothing
    trace := []
    xcvr := Xcvr.alwaysOk 0x00 Link.atReset
    cmds := []
    colours := []
    units := [] }

end Sys2Proof.Machine
end

