-- ==== Sys2Proof/Machine/Ops.lean ====
section
/-! DEFINITION. The named operations over the two buffers, the transceiver and the running command; the abort, which is
what taking an exception is on this hardware (60_exceptions.md R212). -/

namespace Sys2Proof.Machine

/-! ### Memory -/

/-- The byte at an address: the listed one, else `0x00`. -/
def Memory.read : Memory → Nat → Byte
  | [], _ => 0x00
  | (a, v) :: m, x => if x = a then v else Memory.read m x

/-- Write one byte and keep the canonical form: the cell is put in order, and a byte `0x00` lists no cell. -/
def Memory.write : Memory → Nat → Byte → Memory
  | [], x, v => if v = 0 then [] else [(x, v)]
  | (a, w) :: m, x, v =>
    if x < a then (if v = 0 then (a, w) :: m else (x, v) :: (a, w) :: m)
    else if x = a then (if v = 0 then m else (x, v) :: m)
    else (a, w) :: Memory.write m x v

/-- Every address of the list is above a bound, they rise, and no byte is `0x00`. -/
def Memory.risesFrom : Memory → Nat → Bool
  | [], _ => true
  | (a, v) :: m, lo => lo ≤ a && v != 0 && Memory.risesFrom m (a + 1)

/-- The canonical form. -/
def Memory.wf (m : Memory) : Bool := Memory.risesFrom m 0

/-- Every listed address is below `top`: the space ends there (20_memory.md R66). -/
def Memory.below (m : Memory) (top : Nat) : Bool := m.all (fun c => c.1 < top)

/-- Write consecutive bytes, lowest address first. -/
def Memory.writeList : Memory → Nat → List Byte → Memory
  | m, _, [] => m
  | m, a, v :: vs => Memory.writeList (Memory.write m a v) (a + 1) vs

/-- `n` consecutive bytes, lowest address first. -/
def Memory.readList (m : Memory) (a : Nat) : Nat → List Byte
  | 0 => []
  | n + 1 => Memory.read m a :: Memory.readList m (a + 1) n

/-! ### The primitives of 00_scope.md section 6 -/

/-- `MemRead(addr, n)`: slots of `chan`, bound `addr + n <= 3*N` (00_scope.md section 6, 20_memory.md R60). -/
def State.memRead (s : State) (a n : Nat) : Except Fault (List Byte) :=
  if a + n ≤ s.cfg.slots then .ok (s.chan.readList a n) else .error .slotIndexOutOfRange

/-- `MemWrite(addr, n, v)`, same bound, same fault. -/
def State.memWrite (s : State) (a : Nat) (vs : List Byte) : Except Fault State :=
  if a + vs.length ≤ s.cfg.slots then .ok { s with chan := s.chan.writeList a vs } else .error .slotIndexOutOfRange

/-- `EncWrite(addr, n, v)`: bytes of `enc`, bound `addr + n <= ENC_CAP`. -/
def State.encWrite (s : State) (a : Nat) (vs : List Byte) : Except Fault State :=
  if a + vs.length ≤ s.cfg.encCap then .ok { s with enc := s.enc.writeList a vs } else .error .encOverflow

/-- Go on with a value, or end the command *Faulted* (00_scope.md R16). -/
def orFault {α : Type} (x : Except Fault α) (k : α → Result) : Result :=
  match x with
  | .ok v => k v
  | .error f => .fault f

/-! ### Ending a command -/

/-- A command returns (30_encoding.md R99). -/
def State.answer (s : State) (r : Response) : State := { s with last := .returned r }

/-- A command is refused: nothing of the block changes (00_scope.md R16, log 5). -/
def State.refuse (s : State) (r : RefuseReason) : State := { s with last := .refused r }

/-- A command is running (60_exceptions.md R206: "`seq != Idle`, or any command body in progress"). Before construction `seq`
has no value (10_state.md R44) and is not read. -/
def Block.busy (b : Block) : Bool := b.run.isSome || (b.constructed && b.seq != .idle)

/-- The guards common to all commands, in the order of 60_exceptions.md R211: the variant (30_encoding.md R95), then
construction (R96), then, a fault and no refusal, another command running (R206; log 10). -/
def State.guarded (s : State) (v : Variant) (needsStore : Bool) (body : Result) : Result :=
  if s.cfg.variant ≠ v then .next (s.refuse .notInVariant)
  else if needsStore && !s.constructed then .next (s.refuse .notConstructed)
  else if s.busy then .fault .concurrentAccess
  else body

/-! ### Construction, which is reset (70_reset_and_hazards.md R230) -/

/-- What both variants' `CONSTRUCT` do: `chan` all zero, `seq = Idle`, `constructed = 1` (41_prerender_store.md R120). -/
def State.zeroChan (s : State) : State := { s with constructed := true, chan := [], seq := .idle }

/-- What `S.CONSTRUCT` does besides: `enc` all zero, `cursor = 0` (42_streaming_store.md R140). -/
def State.zeroEnc (s : State) : State := { s with enc := [], cursor := 0 }

/-! ### Transmissions -/

/-- `SEQ.RUN` is invoked: it starts with `seq = Idle` and an empty trace (43_sequencer.md R170, 10_state.md R45), and the
command does not return before it ends. -/
def State.startRun (s : State) (src : Source) : State :=
  { s with run := some src, seq := .idle, trace := [], last := .running }

/-- The answer the transceiver gives to the next operation. -/
def Xcvr.answer (x : Xcvr) : Answer := x.script.head?.getD x.rest

/-- The transceiver after it has answered one operation. -/
def Xcvr.answered (x : Xcvr) : Xcvr := { x with script := x.script.tail }

/-- What an `ok` answer is to an operation: `ok` to a `SEND`, `ok(v)` to a `RECV` (43_sequencer.md R179, R180). -/
def okReply (op : XcvrOp) (v : Byte) : Reply :=
  match op with
  | .send _ => .ok
  | .recv => .okByte v

/-- One operation has been answered: it is in the ghost trace. The byte of a `RECV` is stored nowhere else
(43_sequencer.md R181). -/
def Block.logged (b : Block) (op : XcvrOp) (r : Reply) : Block :=
  { b with trace := b.trace ++ [{ op := op, reply := r }] }

/-- The transmission ends: `seq <- Idle` and the running command returns `r` (43_sequencer.md R176, R177). -/
def Block.endRun (b : Block) (r : Response) : Block :=
  { b with seq := .idle, run := none, last := .returned r }

/-- TAKING THE ONE EXCEPTION: `raise ChannelError(e)` (60_exceptions.md R212). No further operation is issued, `seq <- Idle`,
the command returns `Err(e)` at once, and nothing else happens: no state is saved, no vector, no handler. There is no return
from it (R216). -/
def Block.raiseChannelError (b : Block) (e : ChannelError) : Block := b.endRun (.err e)

/-- A fault code of 60_exceptions.md that is the stuck end H1 (R208), not a violated precondition. -/
def Fault.isStuck : Fault → Bool
  | .stalled => true
  | _ => false

end Sys2Proof.Machine
end

