-- ==== Sys2Proof/Machine/Encoder.lean ====
section
/-! DEFINITION. The meanings of `ENCODE` and of the waveform rows. The Bit Encoder is combinational: it writes no state and
issues no operation (40_encoder.md R103, R111); its output is what the step answers (log 12). -/

namespace Sys2Proof.Machine

/-- `ENCODE c` (40_encoder.md R103). -/
def execEncode (c : Byte) (s : State) : Result := .next (s.answer (.waves (Encoder.encode c)))

/-- `WAVE.00` (R102). -/
def execWave00 (s : State) : Result := .next (s.answer (.waves [Encoder.lut false false]))

/-- `WAVE.01` (R102). -/
def execWave01 (s : State) : Result := .next (s.answer (.waves [Encoder.lut false true]))

/-- `WAVE.10` (R102). -/
def execWave10 (s : State) : Result := .next (s.answer (.waves [Encoder.lut true false]))

/-- `WAVE.11` (R102). -/
def execWave11 (s : State) : Result := .next (s.answer (.waves [Encoder.lut true true]))

/-- `WAVE`, the byte of the group `(h, l)` (R102, 30_encoding.md R81). -/
def execWave (h l : Bool) (s : State) : Result := .next (s.answer (.waves [Encoder.lut h l]))

end Sys2Proof.Machine
end

