-- ==== Sys2Proof/Machine/Flags.lean ====
section
/-! DEFINITION. The block has no status flags and no condition codes (10_state.md R34), and no instruction writes one. What
a model may compute in their place are the ghost counts over the trace (10_state.md R38, R39). -/

namespace Sys2Proof.Machine

/-- Is this an `ok` answer? -/
def Reply.isOk : Reply → Bool
  | .ok => true
  | .okByte _ => true
  | .err _ => false

/-- Is this operation a `SEND`? -/
def isSend : XcvrOp → Bool
  | .send _ => true
  | .recv => false

/-- The `SEND` operations issued (43_sequencer.md R191). -/
def sendCount (t : List Event) : Nat := t.countP (fun e => isSend e.op)

/-- The `RECV` operations issued. -/
def recvCount (t : List Event) : Nat := t.countP (fun e => !isSend e.op)

/-- What one event adds to `inflight`: a `SEND` that returned `ok` adds one, a `RECV` that returned `ok` takes one away. -/
def inflightStep (e : Event) : Int :=
  if e.reply.isOk then (if isSend e.op then 1 else -1) else 0

/-- The ghost quantity `inflight` of a trace (10_state.md R38). -/
def inflightOf (t : List Event) : Int := (t.map inflightStep).sum

/-- `inflight`, counted from the start of the current transmission (10_state.md R38). -/
def Block.inflight (b : Block) : Int := inflightOf b.trace

/-- The operations of a trace, without their answers (43_sequencer.md R171). -/
def opsOf (t : List Event) : List XcvrOp := t.map Event.op

/-- The bytes of the `SEND` entries, in order: "exactly what the transceiver is asked to put on the data line"
(10_state.md R39). -/
def sentBytes : List XcvrOp → List Byte
  | [] => []
  | .send b :: ops => b :: sentBytes ops
  | .recv :: ops => sentBytes ops

end Sys2Proof.Machine
end

