-- ==== Sys2Proof/Machine/Operands.lean ====
section
/-! DEFINITION. The operand forms: slot indices, pixel indices and colours in a store's slot order (30_encoding.md R89 to
R91), and the payload operand of a transmission. -/

namespace Sys2Proof.Machine

/-- The base slot of pixel `i` (30_encoding.md R90). -/
def pixelBase (i : Nat) : Nat := 3 * i

/-- A colour as the three bytes of its slots: green, red, blue in `P` (10_state.md R23), red, green, blue in `S` (R24). -/
def slotBytes (v : Variant) (c : Colour) : List Byte :=
  match v with
  | .P => [c.g, c.r, c.b]
  | .S => [c.r, c.g, c.b]

/-- The colour that three slot bytes hold, in the same two orders. -/
def colourOfSlots (v : Variant) (b0 b1 b2 : Byte) : Colour :=
  match v with
  | .P => { r := b1, g := b0, b := b2 }
  | .S => { r := b0, g := b1, b := b2 }

/-- A pixel operand is in range, else `fault PixelIndexOutOfRange` (20_memory.md R60). -/
def State.checkPixel (s : State) (i : Nat) : Except Fault Unit :=
  if i < s.cfg.n then .ok () else .error .pixelIndexOutOfRange

/-- The colour of pixel `i` as the store's slot order gives it (20_memory.md R55). -/
def State.colourAt (s : State) (v : Variant) (i : Nat) : Colour :=
  colourOfSlots v (s.chan.read (pixelBase i)) (s.chan.read (pixelBase i + 1)) (s.chan.read (pixelBase i + 2))

/-- Store a colour in the three slots of pixel `i`. -/
def State.storeColour (s : State) (v : Variant) (i : Nat) (c : Colour) : Except Fault State :=
  s.memWrite (pixelBase i) (slotBytes v c)

/-! ### The payload of a transmission -/

/-- `L`: `12 * N` for `chan` (41_prerender_store.md R129), `cursor` for `enc` (42_streaming_store.md R148). -/
def Block.payloadLen (b : Block) (src : Source) : Nat :=
  match src with
  | .chan => 4 * b.cfg.slots
  | .enc => b.cursor
  | .given p => p.length

/-- Payload byte `p`, read when it is sent (20_memory.md R71): byte `p mod 4` of `ENCODE(chan[p div 4])`
(41_prerender_store.md R125), or `enc[p]` (42_streaming_store.md R148). -/
def Block.payloadByte (b : Block) (src : Source) (p : Nat) : Byte :=
  match src with
  | .chan => Encoder.waveOf (b.chan.read (p / 4)) (p % 4)
  | .enc => b.enc.read p
  | .given bs => bs.getD p 0

/-- `PAYLOAD_P()` as 41_prerender_store.md R125 writes it: the encoded slots in ascending order. -/
def Block.payloadP (b : Block) : List Byte := (b.chan.readList 0 b.cfg.slots).flatMap Encoder.encode

/-- The payload as a list: what the transmission sends in its third step (43_sequencer.md R170). -/
def Block.payload (b : Block) (src : Source) : List Byte :=
  match src with
  | .chan => b.payloadP
  | .enc => b.enc.readList 0 b.cursor
  | .given p => p

end Sys2Proof.Machine
end

