-- ==== Sys2Proof/Machine/Sequencer.lean ====
section
/-! DEFINITION. The Transmission Sequencer (43_sequencer.md): the operation list, the state machine, and the meanings of
`XCVR.SEND`, `XCVR.RECV` and `SEQ.RUN`. -/

namespace Sys2Proof.Machine

/-! ### The operation list (R171) -/

/-- Send/receive cycles, one for each byte (R174). -/
def cyclesOf : List Byte → List XcvrOp
  | [] => []
  | b :: bs => .send b :: .recv :: cyclesOf bs

/-- `ops[0] .. ops[T-1]` (R171): the lead byte (R172), the optional lead pad (R173), the payload (R174), the trailing pad
(R175), the final drain (R176). -/
def opList (cfg : Config) (payload : List Byte) : List XcvrOp :=
  .send 0x00 ::
    (cyclesOf (List.replicate cfg.leadCycles 0x00) ++ (cyclesOf payload ++
      (cyclesOf (List.replicate cfg.trailCycles 0x00) ++ [.recv])))

/-! ### The state machine (R183 to R190) -/

/-- The operation transition: where an `ok` answer leads (R184, R186 to R189). -/
def Seq.afterOk : Seq → Seq
  | .idle => .pos .leadByteSent 0 .tx
  | .pos .draining _ _ => .idle
  | .pos p c .tx => .pos p c .rx
  | .pos p c .rx => .pos p (c + 1) .tx

/-- The internal transition, which issues nothing (R185 to R188), if there is one; `len` is the payload's length. -/
def Seq.internal (cfg : Config) (len : Nat) : Seq → Option Seq
  | .pos .leadByteSent _ _ =>
    if cfg.idlePad then some (.pos .optionalIdlePad 0 .tx) else some (.pos .payloadStreaming 0 .tx)
  | .pos .optionalIdlePad i .tx => if i < cfg.leadPadLen then none else some (.pos .payloadStreaming 0 .tx)
  | .pos .payloadStreaming k .tx => if k < len then none else some (.pos .trailingPad 0 .tx)
  | .pos .trailingPad i .tx => if i < cfg.trailPadLen then none else some (.pos .draining 0 .rx)
  | _ => none

/-- The internal transitions fused into the operation transition before them (R183: "A model may fuse every internal
transition"); there are at most four in a row. -/
def Seq.settle (cfg : Config) (len : Nat) (q : Seq) : Seq :=
  let go := fun q => (Seq.internal cfg len q).getD q
  go (go (go (go q)))

/-- The operation a state issues (R184, R186 to R189): none when no transmission runs. -/
def Block.issues (b : Block) : Option XcvrOp :=
  match b.run with
  | none => none
  | some src =>
    match b.seq with
    | .idle => some (.send 0x00)
    | .pos .leadByteSent _ _ => none
    | .pos .optionalIdlePad _ .tx => some (.send 0x00)
    | .pos .payloadStreaming k .tx => some (.send (b.payloadByte src k))
    | .pos .trailingPad _ .tx => some (.send 0x00)
    | .pos .draining _ .tx => none
    | .pos _ _ .rx => some .recv

/-- Where the sequencer stands after its operation is answered `ok`. -/
def Block.nextSeq (b : Block) : Seq :=
  match b.run with
  | none => b.seq
  | some src => Seq.settle b.cfg (b.payloadLen src) b.seq.afterOk

/-- The operation was answered `ok`: the sequencer advances (R184 to R189); the answer to the final drain ends the run with
`Ok` (R176, R189). -/
def Block.advance (b : Block) : Block :=
  match b.nextSeq with
  | .idle => b.endRun .ok
  | q => { b with seq := q }

/-- THE STEP OF THE BLOCK, with the transceiver's answer as its input (10_state.md R29): what the block does when its operation
`op` is answered `a`. `ok` lets the sequencer go on (R179, R180), `err(e)` raises `ChannelError(e)` (R177), and an operation that
is never answered leaves the block where it is (R208). -/
def Block.respond (b : Block) (op : XcvrOp) (a : Answer) : Except Fault Block :=
  match a with
  | .ok v => .ok (b.logged op (okReply op v)).advance
  | .err e => .ok ((b.logged op (.err e)).raiseChannelError e)
  | .never => .error .stalled

/-- One transceiver operation, for the sequencer alone (60_exceptions.md R222): the transceiver's answer goes to the block, and
the transceiver goes on to its next answer. An operation that the sequencer does not issue here is another party's use of the
transceiver, F5 (log 11). -/
def State.transceive (s : State) (op : XcvrOp) : Result :=
  if s.issues = some op then
    orFault (s.respond op s.xcvr.answer) fun b => .next { s with toBlock := b, xcvr := s.xcvr.answered }
  else .fault .concurrentAccess

/-! ### The block before an oracle (10_state.md R29, 60_exceptions.md R221) -/

/-- An oracle: it answers each operation, and "may base its answer on the whole history of operations" (60_exceptions.md R221),
here the list of operations answered so far, oldest first. -/
abbrev Oracle := List Event → XcvrOp → Answer

/-- `k` operations of the block's transmission before an oracle, which has answered the operations `past` of earlier
transmissions. A block that issues nothing waits for its host. -/
def Block.runUnder (o : Oracle) (past : List Event) : Nat → Block → Except Fault Block
  | 0, b => .ok b
  | k + 1, b =>
    match b.issues with
    | none => .ok b
    | some op =>
      match b.respond op (o (past ++ b.trace) op) with
      | .ok b' => Block.runUnder o past k b'
      | .error f => .error f

/-! ### The meanings -/

/-- `XCVR.SEND b` (R179). -/
def execXcvrSend (b : Byte) (s : State) : Result := s.transceive (.send b)

/-- `XCVR.RECV` (R180). -/
def execXcvrRecv (s : State) : Result := s.transceive .recv

/-- `SEQ.RUN payload` (R182), "requires seq = Idle": the run starts; its operations are the next steps. It sends whatever
list it is given (95_test_vectors.md V40). -/
def execSeqRun (payload : List Byte) (s : State) : Result :=
  if s.busy then .fault .concurrentAccess else .next (s.startRun (.given payload))

end Sys2Proof.Machine
end

