-- ==== Sys2Proof/Machine/Store.lean ====
section
/-! DEFINITION. What the two stores' commands share: raw and colour access (20_memory.md R50 to R62). -/

namespace Sys2Proof.Machine

/-- A raw read of one slot (41_prerender_store.md R121, 42_streaming_store.md R141). -/
def State.readRaw (s : State) (idx : Nat) : Result :=
  orFault (s.memRead idx 1) fun bs => .next (s.answer (.byte (bs.headD 0)))

/-- A colour read of one pixel (R122, R143). -/
def State.readColour (s : State) (v : Variant) (i : Nat) : Result :=
  orFault (s.checkPixel i) fun _ => .next (s.answer (.colour (s.colourAt v i)))

/-- `READ_RAW` of a variant, with the common guards. -/
def State.cmdReadRaw (s : State) (v : Variant) (idx : Nat) : Result := s.guarded v true (s.readRaw idx)

/-- `READ_COLOR` of a variant, with the common guards. -/
def State.cmdReadColour (s : State) (v : Variant) (i : Nat) : Result := s.guarded v true (s.readColour v i)

end Sys2Proof.Machine
end

