-- ==== Sys2Proof/Machine/Prerender.lean ====
section
/-! DEFINITION. The Prerendering Pixel Store, variant `P` (41_prerender_store.md). -/

namespace Sys2Proof.Machine

/-- `P.CONSTRUCT` (R120): every slot zero; the transceiver is not touched (10_state.md R45). -/
def execPConstruct (s : State) : Result := s.guarded .P false (.next (s.zeroChan.answer .nothing))

/-- `P.READ_RAW idx` (R121). -/
def execPReadRaw (idx : Nat) (s : State) : Result := s.cmdReadRaw .P idx

/-- `P.READ_COLOR i` (R122), slots in (green, red, blue) order. -/
def execPReadColor (i : Nat) (s : State) : Result := s.cmdReadColour .P i

/-- `P.SET_COLOR i, c` (R123): exactly the pixel's three slots change. -/
def execPSetColor (i : Nat) (c : Colour) (s : State) : Result :=
  s.guarded .P true <|
    orFault (s.checkPixel i) fun _ =>
      orFault (s.storeColour .P i c) fun s' => .next (s'.answer .nothing)

/-- `P.TRANSMIT` (R124): `SEQ.RUN` over every slot of `chan`, encoded as it is sent (R125). The command body is started
here; its operations are the next steps, and the last of them returns `Ok` or `Err(e)` (log 6). -/
def execPTransmit (s : State) : Result := s.guarded .P true (.next (s.startRun .chan))

end Sys2Proof.Machine
end

