-- ==== Sys2Proof/Machine/Reserved.lean ====
section
/-! DEFINITION. Reserved command words (30_encoding.md R94) and the reset line (70_reset_and_hazards.md R231). -/

namespace Sys2Proof.Machine

/-- `RESERVED.OP`: "the block does not execute it, changes no state, issues no transceiver operation", and the command ends
`refuse ReservedEncoding`, whatever the variant, before construction too (R94, 60_exceptions.md R211). A word that is not
reserved is no operand of this row; it is refused the same way. -/
def execReservedOp (_w : CmdWord) (s : State) : Result := .next (s.refuse .reservedEncoding)

/-- A hardware reset input, if there is one: "exactly the effect of `CONSTRUCT`", only between commands (R231); during a
transmission it is a command given while another runs (93_implementation_defined.md U18). No step takes it: it is an input
from outside the ports (log 18). -/
def State.resetLine (s : State) : Result :=
  if s.busy then .fault .concurrentAccess
  else match s.cfg.variant with
    | .P => .next (s.zeroChan.answer .nothing)
    | .S => .next (s.zeroChan.zeroEnc.answer .nothing)

end Sys2Proof.Machine
end

