-- ==== Sys2Proof/Machine/Streaming.lean ====
section
/-! DEFINITION. The Streaming Pixel Store, variant `S` (42_streaming_store.md). -/

namespace Sys2Proof.Machine

/-- Append the four waveform bytes of one channel at the cursor and advance it by 4 (R144, R145); an append past `ENC_CAP`
is `fault EncOverflow` (R150). -/
def State.appendChannel (s : State) (ch : Byte) : Except Fault State :=
  match s.encWrite s.cursor (Encoder.encode ch) with
  | .ok s' => .ok { s' with cursor := s.cursor + 4 }
  | .error f => .error f

/-- Append a colour in the wire order green, red, blue (R145). -/
def State.appendColour (s : State) (c : Colour) : Except Fault State :=
  match s.appendChannel c.g with
  | .ok s1 =>
    match s1.appendChannel c.r with
    | .ok s2 => s2.appendChannel c.b
    | .error f => .error f
  | .error f => .error f

/-- One turn of the fill loop of R144 for the colour at position `i`: `fault TooManyColors` when it has no pixel (R150);
else it is stored raw in the slot order of `S` (R146) and appended to `enc` (R145). -/
def State.fillOne (s : State) (i : Nat) (c : Colour) : Except Fault State :=
  if i < s.cfg.n then
    match s.storeColour .S i c with
    | .ok s' => s'.appendColour c
    | .error f => .error f
  else .error .tooManyColors

/-- The fill loop of R144, from the colour at position `i` on. -/
def State.fill (s : State) (i : Nat) : List Colour → Except Fault State
  | [] => .ok s
  | c :: cs =>
    match s.fillOne i c with
    | .ok s' => s'.fill (i + 1) cs
    | .error f => .error f

/-- `S.CONSTRUCT` (R140): both buffers and the cursor zero; the transceiver is not touched (10_state.md R45). -/
def execSConstruct (s : State) : Result := s.guarded .S false (.next (s.zeroChan.zeroEnc.answer .nothing))

/-- `S.READ_RAW idx` (R141). -/
def execSReadRaw (idx : Nat) (s : State) : Result := s.cmdReadRaw .S idx

/-- `S.WRITE_RAW idx, v` (R142): exactly one slot changes. -/
def execSWriteRaw (idx : Nat) (v : Byte) (s : State) : Result :=
  s.guarded .S true <| orFault (s.memWrite idx [v]) fun s' => .next (s'.answer .nothing)

/-- `S.READ_COLOR i` (R143), slots in (red, green, blue) order. -/
def execSReadColor (i : Nat) (s : State) : Result := s.cmdReadColour .S i

/-- `S.WRITE_ALL cs` (R144): the cursor is 0 (R147), all colours are stored and encoded (the fill, complete before the first
operation, R151), then `SEQ.RUN` over the filled prefix of `enc` (R148). The transmission is started here; its operations
are the next steps (log 6). -/
def execSWriteAll (cs : List Colour) (s : State) : Result :=
  s.guarded .S true <|
    orFault (State.fill { s with cursor := 0 } 0 cs) fun s' => .next (s'.startRun .enc)

end Sys2Proof.Machine
end

