-- ==== Sys2Proof/Machine/Dispatch.lean ====
section
/-! DEFINITION. One arm per instruction, each a direct call of its meaning. -/

namespace Sys2Proof.Machine

def exec (i : Instr) (s : State) : Host.Outcome State Fault Refusal :=
  match i with
  -- 41_prerender_store.md
  | .pConstruct => Sys2Proof.Machine.execPConstruct s
  | .pReadRaw idx => Sys2Proof.Machine.execPReadRaw idx s
  | .pReadColor px => Sys2Proof.Machine.execPReadColor px s
  | .pSetColor px c => Sys2Proof.Machine.execPSetColor px c s
  | .pTransmit => Sys2Proof.Machine.execPTransmit s
  -- 42_streaming_store.md
  | .sConstruct => Sys2Proof.Machine.execSConstruct s
  | .sReadRaw idx => Sys2Proof.Machine.execSReadRaw idx s
  | .sWriteRaw idx v => Sys2Proof.Machine.execSWriteRaw idx v s
  | .sReadColor px => Sys2Proof.Machine.execSReadColor px s
  | .sWriteAll cs => Sys2Proof.Machine.execSWriteAll cs s
  -- 30_encoding.md R94
  | .reservedOp w => Sys2Proof.Machine.execReservedOp w s
  -- 40_encoder.md
  | .wave00 => Sys2Proof.Machine.execWave00 s
  | .wave01 => Sys2Proof.Machine.execWave01 s
  | .wave10 => Sys2Proof.Machine.execWave10 s
  | .wave11 => Sys2Proof.Machine.execWave11 s
  | .wave h l => Sys2Proof.Machine.execWave h l s
  | .encodeChan c => Sys2Proof.Machine.execEncode c s
  -- 43_sequencer.md
  | .xcvrSend b => Sys2Proof.Machine.execXcvrSend b s
  | .xcvrRecv => Sys2Proof.Machine.execXcvrRecv s
  | .seqRun payload => Sys2Proof.Machine.execSeqRun payload s

end Sys2Proof.Machine
end

