-- ==== Sys2Proof/Machine/Fetch.lean ====
section
/-! DEFINITION. Where a step's words come from. While a transmission runs, the sequencer puts its operation on the
transceiver port; else a word waits at a component (log 12) or a command at the command port (log 4). -/

namespace Sys2Proof.Machine

/-- What a step finds. -/
inductive Fetched where
  /-- Nothing to do: the block "is simply idle and keeps all its state" (60_exceptions.md R226; log 21). -/
  | nothing
  /-- Words, and the state they have been taken from. -/
  | words (ws : Words) (s : State)
  deriving DecidableEq, Repr

/-- The state after the first command word and its colour words have been taken off the ports (30_encoding.md R88). -/
def State.takeCommand (s : State) (w : CmdWord) : State :=
  { s with cmds := s.cmds.tail, colours := s.colours.drop (colourCount w) }

/-- Fetch. A command word is taken with exactly its colour words, refused or not (30_encoding.md R88); until the host has
given them all, the command is not complete and the block waits (log 4). -/
def State.fetch (s : State) : Fetched :=
  if s.busy then
    match s.issues with
    | some op => .words (.xcvr (xcvrWord op)) s
    | none => .nothing
  else
    match s.units with
    | ws :: us => .words ws { s with units := us }
    | [] =>
      match s.cmds with
      | [] => .nothing
      | w :: _ =>
        if s.colours.length < colourCount w then .nothing
        else .words (.cmd w (s.colours.take (colourCount w))) (s.takeCommand w)

/-- The variant whose row an instruction is, if it is a command's. -/
def rowVariant : Instr → Option Variant
  | .pConstruct => some .P
  | .pReadRaw _ => some .P
  | .pReadColor _ => some .P
  | .pSetColor _ _ => some .P
  | .pTransmit => some .P
  | .sConstruct => some .S
  | .sReadRaw _ => some .S
  | .sWriteRaw _ _ => some .S
  | .sReadColor _ => some .S
  | .sWriteAll _ => some .S
  | .reservedOp _ => none
  | .wave00 => none
  | .wave01 => none
  | .wave10 => none
  | .wave11 => none
  | .wave _ _ => none
  | .encodeChan _ => none
  | .xcvrSend _ => none
  | .xcvrRecv => none
  | .seqRun _ => none

/-- The machine between commands, with these words where the next step fetches (log 13). A command word gets the strap of
the variant that has it, where the machine's own variant has it not. A transceiver operation is the sequencer's alone, so it
is placed as the payload operation of a running transmission. -/
def State.place (s : State) : Words → State
  | .cmd w colours =>
    { s with
      cfg := { s.cfg with variant := (rowVariant (decodeCmd s.cfg.variant w colours)).getD s.cfg.variant }
      run := none
      seq := .idle
      units := []
      cmds := w :: s.cmds
      colours := colours ++ s.colours }
  | .xcvr w =>
    match decodeXcvr w with
    | .ok (.xcvrSend b) => { s with run := some (.given [b]), seq := .pos .payloadStreaming 0 .tx }
    | .ok .xcvrRecv => { s with run := some (.given [0x00]), seq := .pos .payloadStreaming 0 .rx }
    | _ => { s with run := none, seq := .idle, units := .xcvr w :: s.units }
  | .wave b => { s with run := none, seq := .idle, units := .wave b :: s.units }
  | .chan4 w => { s with run := none, seq := .idle, units := .chan4 w :: s.units }
  | .frame bs => { s with run := none, seq := .idle, units := .frame bs :: s.units }

end Sys2Proof.Machine
end

