-- ==== Sys2Proof/Machine/Step.lean ====
section
/-! DEFINITION. One step: a host command is accepted, or one transceiver operation of the running transmission is done
(92_eei_decisions.md D1). -/

namespace Sys2Proof.Machine

/-- One step of the machine. -/
def step (s : State) : Host.Outcome State Fault Refusal :=
  match s.fetch with
  | .nothing => .next s
  | .words ws s' =>
    match decode s.cfg ws with
    | .ok i => exec i s'
    | .error e => .refused (.notWords e)

/-- The machine with a table row's bits where the next step fetches its instruction (log 13). -/
def State.withFetchWord (s : State) (nbits w : Nat) : State :=
  match tableWords nbits w with
  | some ws => s.place ws
  | none => s

end Sys2Proof.Machine
end

