-- ==== Sys2Proof/Machine/Assembly.lean ====
section
/-! DEFINITION. The command syntax of 30_encoding.md R98 after reading its text: operation names, operands, directives. The
names are the document's; `led_color` is the one alias. -/

namespace Sys2Proof.Assembly

/-- The operation names of R98. -/
inductive OpName where
  | construct
  | readRaw
  | writeRaw
  | readColor
  | ledColor
  | setColor
  | transmit
  | writeAll
  deriving DecidableEq, Repr

/-- An operand: a slot, pixel or byte, a colour, a colour list. -/
inductive Operand where
  | num (k : Nat)
  | colour (c : Colour)
  | colours (cs : List Colour)
  deriving DecidableEq, Repr

/-- The directives of R98. -/
inductive Directive where
  | variant (v : Variant)
  | pixels (n : Nat)
  | idlePad (on : Bool)
  deriving DecidableEq, Repr

/-- The command a line stands for in an instance of this variant. A name that only the other variant has names that variant's
row, which refuses itself (R95). A line of another form, or with a byte above 255, stands for no command (log 27). -/
def assemble (v : Variant) : OpName → List Operand → Option Instr
  | .construct, [] => some (match v with | .P => .pConstruct | .S => .sConstruct)
  | .readRaw, [.num k] => some (match v with | .P => .pReadRaw k | .S => .sReadRaw k)
  | .writeRaw, [.num k, .num b] => if b < 256 then some (.sWriteRaw k (BitVec.ofNat 8 b)) else none
  | .readColor, [.num k] => some (match v with | .P => .pReadColor k | .S => .sReadColor k)
  | .ledColor, [.num k] => some (match v with | .P => .pReadColor k | .S => .sReadColor k)
  | .setColor, [.num k, .colour c] => some (.pSetColor k c)
  | .transmit, [] => some .pTransmit
  | .writeAll, [.colours cs] => some (.sWriteAll cs)
  | _, _ => none

/-- The straps a program's directives have named so far. -/
structure Straps where
  variant : Option Variant
  pixels : Option Nat
  idlePad : Option Bool
  deriving DecidableEq, Repr

/-- One directive names one strap. Where a program names one twice, the later directive wins: DESIGN CHOICE (log 27), unsafe, since
R98 does not say. -/
def Straps.name (c : Straps) : Directive → Straps
  | .variant v => { c with variant := some v }
  | .pixels n => { c with pixels := some n }
  | .idlePad on => { c with idlePad := some on }

/-- The instance that directives describe (R98), with the lengths the spec fixes. `VARIANT`, `N` and `IDLE_PAD` are open, "with no
default" (00_scope.md section 4, R7), so a program that leaves one out is given none: that it then describes no instance is a
DESIGN CHOICE (log 27), safe. -/
def configOf (ds : List Directive) : Option Config :=
  match ds.foldl Straps.name { variant := none, pixels := none, idlePad := none } with
  | { variant := some v, pixels := some n, idlePad := some on } => some (Config.ofStraps v n on)
  | _ => none

end Sys2Proof.Assembly
end

