-- ==== Sys2Proof/Machine/Wire.lean ====
section
/-! DEFINITION. What the bytes of a trace are on the data line, and the arithmetic on time that the spec derives
(20_memory.md R56, 40_encoder.md R107, 70_reset_and_hazards.md R236 to R238, R250 to R253). No step reads any of it: "the
model has no time" (R254; log 23). -/

namespace Sys2Proof.Machine

/-- The bits of a byte, bit 7 first. -/
def bitsMsbFirst (b : Byte) : List Bool := (List.range 8).map fun i => b.getLsbD (7 - i)

/-- The serial bits of bytes on the data line: bit 7 of each byte first (20_memory.md R56), if the link is configured so. -/
def wireBits (l : Link) (bs : List Byte) : List Bool :=
  bs.flatMap fun b => if l.msbFirst then bitsMsbFirst b else (bitsMsbFirst b).reverse

/-- The bit cell of a source bit as serial bits: high for one bit or for three, then low (40_encoder.md R105, R107). -/
def cellBits (b : Bool) : List Bool := if b then [true, true, true, false] else [true, false, false, false]

/-- The configuration contract of 70_reset_and_hazards.md R236 to R238, "which the core documents but does not enforce". -/
def Link.inContract (l : Link) : Bool :=
  Config.fMinHz ≤ l.clockHz && l.clockHz ≤ Config.fMaxHz && l.idleLow && l.firstEdge && l.msbFirst

/-- One serial bit in seconds, `t = 1 / f` (R250). -/
def Link.bitTime (l : Link) : ℚ := 1 / l.clockHz

/-- How long the pulse of a source bit is high: `t` or `3t` (R251). -/
def Link.highTime (l : Link) (b : Bool) : ℚ := (cellBits b).count true * l.bitTime

/-- How long it is low: `3t` or `t` (R251). -/
def Link.lowTime (l : Link) (b : Bool) : ℚ := (cellBits b).count false * l.bitTime

/-- The serial bits of a whole frame: `8 * (1 + P + L + Q)` (R252). -/
def Config.frameBits (cfg : Config) (payloadLen : Nat) : Nat :=
  8 * (1 + cfg.leadCycles + payloadLen + cfg.trailCycles)

/-- The duration of a frame whose bytes go out back to back (R252), which the document does not promise. -/
def Link.frameTime (l : Link) (cfg : Config) (payloadLen : Nat) : ℚ := Config.frameBits cfg payloadLen * l.bitTime

/-- How long a pad of `n` bytes holds the line low (R253). -/
def Link.padTime (l : Link) (n : Nat) : ℚ := (8 * n : Nat) * l.bitTime

end Sys2Proof.Machine
end

