-- ==== Sys2Proof/WellFormed.lean ====
section
/-! DEFINITION. Which instructions their format can carry (30_encoding.md R86 to R94). The abstract commands take any
index (00_scope.md R13); a well-formed one fits the fields of its words. -/

namespace Sys2Proof

/-- An index or count that fits the 16-bit field `idx` (R86, R89). -/
def fitsIdx (i : Nat) : Bool := i < 2 ^ Config.idxWidth

/-- The check of an instruction: its index or count fits, a reserved word is reserved (R94), and a payload written as
`F-FRAME` is made of waveform bytes (R84, R93). -/
def Instr.wellFormed : Instr → Bool
  | .pConstruct => true
  | .pReadRaw idx => fitsIdx idx
  | .pReadColor i => fitsIdx i
  | .pSetColor i _ => fitsIdx i
  | .pTransmit => true
  | .sConstruct => true
  | .sReadRaw idx => fitsIdx idx
  | .sWriteRaw idx _ => fitsIdx idx
  | .sReadColor i => fitsIdx i
  | .sWriteAll cs => fitsIdx cs.length
  | .reservedOp w => isReserved w
  | .wave00 => true
  | .wave01 => true
  | .wave10 => true
  | .wave11 => true
  | .wave _ _ => true
  | .encodeChan _ => true
  | .xcvrSend _ => true
  | .xcvrRecv => true
  | .seqRun p => p.all Encoder.isWave

end Sys2Proof
end

