-- ==== Sys2Proof/Safety.lean ====
section
/-! DEFINITION. What counts as a good state and a safe run: the invariant of the machine, in parts, and the premises under
which a command is accepted. -/

namespace Sys2Proof.Machine

/-! ### Accepting a command -/

/-- A command of variant `v` is accepted here: the instance is of that variant (30_encoding.md R95), the store exists (R96)
and no command is running (60_exceptions.md R206). -/
def State.accepts (s : State) (v : Variant) : Prop := s.cfg.variant = v ∧ s.constructed = true ∧ s.busy = false

/-- `S.WRITE_ALL cs` fits (42_streaming_store.md R150): at most `N` colours, and their `12 * k` bytes in `enc`. -/
def State.fits (s : State) (cs : List Colour) : Prop := cs.length ≤ s.cfg.n ∧ 12 * cs.length ≤ s.cfg.encCap

/-! ### The store -/

/-- The buffers, while the store exists (10_state.md R44), are canonical and inside their spaces (20_memory.md R66); `enc` exists
in variant `S` only (10_state.md R20). -/
def State.buffersOk (s : State) : Prop :=
  s.constructed = true →
    s.chan.wf = true ∧ s.chan.below s.cfg.slots = true ∧
    (s.cfg.variant = .S → s.enc.wf = true ∧ s.enc.below s.cfg.encCap = true)

/-- The cursor of variant `S` (10_state.md R27): within `ENC_CAP`, a multiple of 12, and the bytes before it are waveform bytes
(R26). -/
def State.cursorOk (s : State) : Prop :=
  s.constructed = true → s.cfg.variant = .S →
    s.cursor ≤ s.cfg.encCap ∧ s.cursor % 12 = 0 ∧ ∀ j, j < s.cursor → Encoder.isWave (s.enc.read j) = true

/-! ### The sequencer -/

/-- A position the sequencer can stand at before an operation of a transmission of `len` bytes, internal transitions fused
(43_sequencer.md R186 to R189, R194). -/
def Seq.legal (cfg : Config) (len : Nat) : Seq → Prop
  | .idle => True
  | .pos .leadByteSent _ _ => False
  | .pos .optionalIdlePad i _ => cfg.idlePad = true ∧ i < cfg.leadPadLen
  | .pos .payloadStreaming k _ => k < len
  | .pos .trailingPad i _ => i < cfg.trailPadLen
  | .pos .draining i h => i = 0 ∧ h = .rx

/-- 1 in the second half of a cycle. -/
def Half.bit : Half → Nat
  | .tx => 0
  | .rx => 1

/-- How many operations have been answered at a position: the index `j` of 43_sequencer.md R194, read backwards. -/
def Seq.index (cfg : Config) (len : Nat) : Seq → Nat
  | .idle => 0
  | .pos .leadByteSent _ _ => 1
  | .pos .optionalIdlePad i h => 1 + 2 * i + h.bit
  | .pos .payloadStreaming k h => 1 + 2 * cfg.leadCycles + 2 * k + h.bit
  | .pos .trailingPad i h => 1 + 2 * cfg.leadCycles + 2 * len + 2 * i + h.bit
  | .pos .draining _ _ => 1 + 2 * cfg.leadCycles + 2 * len + 2 * cfg.trailCycles

/-- The position of R194 for the index `j < T`. -/
def Seq.ofIndex (cfg : Config) (len j : Nat) : Seq :=
  let half := fun m => if m % 2 = 0 then Half.tx else Half.rx
  if j = 0 then .idle
  else if j - 1 < 2 * cfg.leadCycles then .pos .optionalIdlePad ((j - 1) / 2) (half (j - 1))
  else if j - 1 - 2 * cfg.leadCycles < 2 * len then
    .pos .payloadStreaming ((j - 1 - 2 * cfg.leadCycles) / 2) (half (j - 1 - 2 * cfg.leadCycles))
  else if j - 1 - 2 * cfg.leadCycles - 2 * len < 2 * cfg.trailCycles then
    .pos .trailingPad ((j - 1 - 2 * cfg.leadCycles - 2 * len) / 2) (half (j - 1 - 2 * cfg.leadCycles - 2 * len))
  else .pos .draining 0 .rx

/-- Between commands `seq = Idle` (10_state.md R33); in a transmission it is at a legal position, and a command's own payload
source belongs to its variant. -/
def State.seqOk (s : State) : Prop :=
  match s.run with
  | none => s.constructed = true → s.seq = .idle
  | some src =>
    s.seq.legal s.cfg (s.payloadLen src) ∧
    (src = .chan → s.cfg.variant = .P ∧ s.constructed = true) ∧ (src = .enc → s.cfg.variant = .S ∧ s.constructed = true)

/-- While a transmission runs, its trace is the operations before the position, all answered `ok`, each in its own form
(43_sequencer.md R171, R194). -/
def State.traceOk (s : State) : Prop :=
  ∀ src, s.run = some src →
    opsOf s.trace = (opList s.cfg (s.payload src)).take (s.seq.index s.cfg (s.payloadLen src)) ∧
    ∀ e ∈ s.trace, e.reply.isOk = true

/-- A command that runs has not ended; one that has ended does not run. -/
def State.lastOk (s : State) : Prop := s.run.isSome = true ↔ s.last = .running

/-- The invariant of the machine. -/
structure State.Inv (s : State) : Prop where
  buffers : s.buffersOk
  cursor : s.cursorOk
  seq : s.seqOk
  trace : s.traceOk
  last : s.lastOk

/-- What `inflight` is before the operation issued at a position (43_sequencer.md R192). -/
def Seq.inflightBefore : Seq → Int
  | .idle => 0
  | .pos .draining _ _ => 1
  | .pos _ _ .tx => 1
  | .pos _ _ .rx => 2

/-- The first position of the payload phase or, where it has no cycle, of the next one that issues an operation
(43_sequencer.md R187 to R189). -/
def Seq.fromPayload (cfg : Config) (len : Nat) : Seq :=
  if 0 < len then .pos .payloadStreaming 0 .tx
  else if 0 < cfg.trailPadLen then .pos .trailingPad 0 .tx else .pos .draining 0 .rx

/-! ### Runs -/

/-- `k` steps of the machine, stopping at the first fault or refusal. -/
def State.runs (s : State) (k : Nat) : Result := Sys2Proof.core.run k s

/-- The trace entry of an operation answered `ok` (with byte `v` if it is a `RECV`). -/
def okEvent (op : XcvrOp) (v : Byte) : Event := { op := op, reply := okReply op v }

/-- The trace of operations answered `ok`, the `RECV`s with these bytes. -/
def okTrace (ops : List XcvrOp) (vs : List Byte) : List Event := List.zipWith okEvent ops vs

/-- The transceiver answers its next operations `ok`, the `RECV`s among them with these bytes, and is then the transceiver `y`.
Whatever its answers are, those of a transmission in which none fails are of this form. -/
def Xcvr.answersOk : Xcvr → List Byte → Xcvr → Prop
  | x, [], y => y = x
  | x, v :: vs, y => x.answer = .ok v ∧ Xcvr.answersOk x.answered vs y

/-- The same machine before another transceiver link. -/
def State.withLink (s : State) (l : Link) : State := { s with xcvr := { s.xcvr with link := l } }

/-- Every error token renamed by `f`, wherever the state holds one. -/
def Answer.mapErr (f : ChannelError → ChannelError) : Answer → Answer
  | .ok v => .ok v
  | .err e => .err (f e)
  | .never => .never

def Reply.mapErr (f : ChannelError → ChannelError) : Reply → Reply
  | .ok => .ok
  | .okByte v => .okByte v
  | .err e => .err (f e)

def Ended.mapErr (f : ChannelError → ChannelError) : Ended → Ended
  | .returned (.err e) => .returned (.err (f e))
  | .returned .nothing => .returned .nothing
  | .returned (.byte v) => .returned (.byte v)
  | .returned (.colour c) => .returned (.colour c)
  | .returned .ok => .returned .ok
  | .returned (.waves ws) => .returned (.waves ws)
  | .running => .running
  | .refused r => .refused r

@[inherit_doc Answer.mapErr]
def State.mapErr (f : ChannelError → ChannelError) (s : State) : State :=
  { s with
    last := s.last.mapErr f
    trace := s.trace.map fun e => { e with reply := e.reply.mapErr f }
    xcvr := { s.xcvr with script := s.xcvr.script.map (Answer.mapErr f), rest := s.xcvr.rest.mapErr f } }

/-- Every byte that a `RECV` returned, or will return, replaced by `f`'s. -/
def Answer.mapByte (f : Byte → Byte) : Answer → Answer
  | .ok v => .ok (f v)
  | .err e => .err e
  | .never => .never

def Reply.mapByte (f : Byte → Byte) : Reply → Reply
  | .ok => .ok
  | .okByte v => .okByte (f v)
  | .err e => .err e

@[inherit_doc Answer.mapByte]
def State.mapReceived (f : Byte → Byte) (s : State) : State :=
  { s with
    trace := s.trace.map fun e => { e with reply := e.reply.mapByte f }
    xcvr := { s.xcvr with script := s.xcvr.script.map (Answer.mapByte f), rest := s.xcvr.rest.mapByte f } }

/-- A result with a change made to its next state. -/
def mapNext (g : State → State) : Result → Result
  | .next s => .next (g s)
  | .fault f => .fault f
  | .refused r => .refused r

end Sys2Proof.Machine
end

