-- ==== Sys2Proof/Certificates/Slice0/Obligations.lean ====
section
/-! DEFINITION. The statements for the provers. Each formalises rules of spec/, named in its docstring and in
OBLIGATIONS.json. A clause about the model's own fields (`run`, `last`, `trace`, `xcvr`, `cmds`, `colours`, `units`; logs 2, 4, 9, 12)
is the model's, not the spec's. -/

open Sys2Proof Sys2Proof.Machine

/-! ### The Bit Encoder (40_encoder.md) -/

/-- R103, R104, R106: the four bytes of `ENCODE` are the lookup of the groups, bit by bit and in the arithmetic form, and nothing
else changes. That `ENCODE` is a step, which completes in every state and whose bytes stand in `last`, is the model's choice
(log 12), not the spec's. -/
def Obligations.EncodeGivesTheFourWaveformBytes : Prop :=
  ∀ (c : Byte) (s : State), ∃ w : Nat → Byte,
    exec (.encodeChan c) s = .next { s with last := .returned (.waves [w 0, w 1, w 2, w 3]) } ∧
    ∀ k, k < 4 →
      (w k).toNat = 0x88 + 0x60 * (c.getLsbD (7 - 2 * k)).toNat + 0x06 * (c.getLsbD (6 - 2 * k)).toNat ∧
      bitsMsbFirst (w k) =
        [true, c.getLsbD (7 - 2 * k), c.getLsbD (7 - 2 * k), false,
         true, c.getLsbD (6 - 2 * k), c.getLsbD (6 - 2 * k), false] ∧
      w k = (match c.getLsbD (7 - 2 * k), c.getLsbD (6 - 2 * k) with
        | false, false => 0x88
        | false, true => 0x8E
        | true, false => 0xE8
        | true, true => 0xEE)

/-- R81, R102, R105: the four rows `WAVE.xx` and the general row give the lookup's byte, which is the cell of `h` over the cell
of `l`; a cell's burst is one bit long for 0 and three for 1, and it ends low. That a waveform row is a step, which completes in
every state and whose byte stands in `last`, is the model's choice (log 12), not the spec's. -/
def Obligations.WaveRowsGiveTheLookupByte : Prop :=
  (∀ s : State,
    exec .wave00 s = .next { s with last := .returned (.waves [0x88]) } ∧
    exec .wave01 s = .next { s with last := .returned (.waves [0x8E]) } ∧
    exec .wave10 s = .next { s with last := .returned (.waves [0xE8]) } ∧
    exec .wave11 s = .next { s with last := .returned (.waves [0xEE]) }) ∧
  (∀ (h l : Bool) (s : State), ∃ ch cl : BitVec 4,
    exec (.wave h l) s = .next { s with last := .returned (.waves [ch ++ cl]) } ∧
    ch = (if h then 0b1110 else 0b1000) ∧ cl = (if l then 0b1110 else 0b1000) ∧
    (cellBits h).count true = (if h then 3 else 1) ∧ (cellBits h).getLast? = some false)

/-- R107: with bit 7 first on the wire (20_memory.md R56, a decision of the spec), the serial bits of an encoded byte are the
cells of its bits, most significant source bit first. -/
def Obligations.SourceBitsGoOutMostSignificantFirst : Prop :=
  ∀ (l : Link) (c : Byte), l.msbFirst = true →
    wireBits l (Encoder.encode c) = (bitsMsbFirst c).flatMap cellBits

/-- R108: `ENCODE` is injective; its inverse on its range; the constant bits and equal pairs of every output byte. -/
def Obligations.EncodeIsInjective : Prop :=
  (∀ c d : Byte, Encoder.encode c = Encoder.encode d → c = d) ∧
  ∀ (c : Byte) (k : Nat) (w : Byte), (Encoder.encode c)[k]? = some w →
    c.getLsbD (7 - 2 * k) = w.getLsbD 6 ∧ c.getLsbD (6 - 2 * k) = w.getLsbD 2 ∧
    w.getLsbD 7 = true ∧ w.getLsbD 4 = false ∧ w.getLsbD 3 = true ∧ w.getLsbD 0 = false ∧
    w.getLsbD 6 = w.getLsbD 5 ∧ w.getLsbD 2 = w.getLsbD 1 ∧ w ≠ 0x00 ∧ w ≠ 0xFF

/-! ### Construction and reset (70_reset_and_hazards.md, 10_state.md R40 to R45) -/

/-- R120 and R140 with 10_state.md R40 to R45: `CONSTRUCT` completes in every state in which no command runs, constructed or
not; every byte of `chan` (and in `S` of `enc`) reads zero, the cursor of `S` is zero, and nothing else changes: no operation
is issued. -/
def Obligations.ConstructZeroesTheStore : Prop :=
  (∀ s : State, s.cfg.variant = .P → s.busy = false →
    ∃ t, exec .pConstruct s = .next t ∧ (∀ a, t.chan.read a = 0x00) ∧ t.chan.wf = true ∧
      t = { s with constructed := true, chan := t.chan, seq := .idle, last := .returned .nothing }) ∧
  (∀ s : State, s.cfg.variant = .S → s.busy = false →
    ∃ t, exec .sConstruct s = .next t ∧ (∀ a, t.chan.read a = 0x00 ∧ t.enc.read a = 0x00) ∧
      t.chan.wf = true ∧ t.enc.wf = true ∧
      t = { s with
        constructed := true, chan := t.chan, enc := t.enc, cursor := 0, seq := .idle, last := .returned .nothing })

/-- 10_state.md R44 and 93_implementation_defined.md U9: what the store's fields hold before construction has no effect on
what `CONSTRUCT` leaves. -/
def Obligations.ConstructForgetsOldContents : Prop :=
  ∀ (s : State) (chan enc : Memory) (cursor : Nat) (q : Seq), s.constructed = false →
    (s.cfg.variant = .S →
      exec .sConstruct { s with chan := chan, enc := enc, cursor := cursor, seq := q } = exec .sConstruct s) ∧
    (s.cfg.variant = .P → exec .pConstruct { s with chan := chan, seq := q } = exec .pConstruct s)

/-- R230 with 10_state.md R40 to R44: the reset state is a constructed store with every byte zero and an idle sequencer, with the
lengths of 00_scope.md R9 and R10. The model's choices in it: the straps (log 1); that `trace` is empty, where R45 has it start
empty at every transmission and says nothing of reset (log 9); the last clause through `last`, whose value at reset is the model's
(log 9); that `cursor` and `enc` are there and zero in variant `P`, R41 and R42 being of variant `S` (log 16). -/
def Obligations.ResetIsAConstructedStore : Prop :=
  State.reset.constructed = true ∧ State.reset.cursor = 0 ∧ State.reset.seq = .idle ∧ State.reset.trace = [] ∧
  (∀ a, State.reset.chan.read a = 0x00 ∧ State.reset.enc.read a = 0x00) ∧
  State.reset.cfg.leadPadLen = 140 ∧ State.reset.cfg.trailPadLen = 140 ∧
  State.reset.cfg.encCap = 12 * State.reset.cfg.n ∧
  exec .pConstruct State.reset = .next State.reset

/-- R231: a reset line has the effect of the instance's `CONSTRUCT`, between commands only. -/
def Obligations.ResetLineIsConstruct : Prop :=
  ∀ s : State,
    (s.cfg.variant = .P → s.resetLine = exec .pConstruct s) ∧ (s.cfg.variant = .S → s.resetLine = exec .sConstruct s) ∧
    (s.busy = true → s.resetLine = .fault .concurrentAccess)

/-! ### Reads and writes of the stores (41_prerender_store.md, 42_streaming_store.md) -/

/-- R121, R141 and 60_exceptions.md R203: a raw read returns the byte of its slot and changes nothing; at `3*N` and beyond it
faults. -/
def Obligations.ReadRawReturnsItsSlot : Prop :=
  ∀ (s : State) (idx : Nat),
    (s.accepts .P →
      (idx < 3 * s.cfg.n →
        exec (.pReadRaw idx) s = .next { s with last := .returned (.byte (s.chan.read idx)) }) ∧
      (3 * s.cfg.n ≤ idx → exec (.pReadRaw idx) s = .fault .slotIndexOutOfRange)) ∧
    (s.accepts .S →
      (idx < 3 * s.cfg.n →
        exec (.sReadRaw idx) s = .next { s with last := .returned (.byte (s.chan.read idx)) }) ∧
      (3 * s.cfg.n ≤ idx → exec (.sReadRaw idx) s = .fault .slotIndexOutOfRange))

/-- R122, R143, 10_state.md R23, R24 and 60_exceptions.md R204: a colour read takes slots `3i`, `3i+1`, `3i+2` as green, red,
blue in `P` and as red, green, blue in `S`, and changes nothing; from pixel `N` on it faults. -/
def Obligations.ReadColorUsesTheVariantsSlotOrder : Prop :=
  ∀ (s : State) (i : Nat),
    (s.accepts .P →
      (i < s.cfg.n → exec (.pReadColor i) s = .next { s with
        last := .returned (.colour
          { r := s.chan.read (3 * i + 1), g := s.chan.read (3 * i), b := s.chan.read (3 * i + 2) }) }) ∧
      (s.cfg.n ≤ i → exec (.pReadColor i) s = .fault .pixelIndexOutOfRange)) ∧
    (s.accepts .S →
      (i < s.cfg.n → exec (.sReadColor i) s = .next { s with
        last := .returned (.colour
          { r := s.chan.read (3 * i), g := s.chan.read (3 * i + 1), b := s.chan.read (3 * i + 2) }) }) ∧
      (s.cfg.n ≤ i → exec (.sReadColor i) s = .fault .pixelIndexOutOfRange))

/-- 60_exceptions.md R203 and R204: each of the six commands with an index faults at its bound and beyond, and at no index below it;
an out-of-range `P.SET_COLOR` leaves no state, so it writes no slot. -/
def Obligations.OutOfRangeIndicesFault : Prop :=
  ∀ (s : State) (k : Nat) (v : Byte) (c : Colour),
    (s.accepts .P →
      (3 * s.cfg.n ≤ k ↔ exec (.pReadRaw k) s = .fault .slotIndexOutOfRange) ∧
      (s.cfg.n ≤ k ↔ exec (.pReadColor k) s = .fault .pixelIndexOutOfRange) ∧
      (s.cfg.n ≤ k ↔ exec (.pSetColor k c) s = .fault .pixelIndexOutOfRange)) ∧
    (s.accepts .S →
      (3 * s.cfg.n ≤ k ↔ exec (.sReadRaw k) s = .fault .slotIndexOutOfRange) ∧
      (3 * s.cfg.n ≤ k ↔ exec (.sWriteRaw k v) s = .fault .slotIndexOutOfRange) ∧
      (s.cfg.n ≤ k ↔ exec (.sReadColor k) s = .fault .pixelIndexOutOfRange))

/-- R123 and 60_exceptions.md R204: `P.SET_COLOR` writes green, red, blue into the pixel's three slots, every other slot and
every other field keeps its value, and the buffer stays canonical; from pixel `N` on it faults. -/
def Obligations.SetColorWritesItsThreeSlots : Prop :=
  ∀ (s : State) (i : Nat) (c : Colour), s.accepts .P →
    (i < s.cfg.n → s.chan.wf = true →
      ∃ t, exec (.pSetColor i c) s = .next t ∧
        t.chan.read (3 * i) = c.g ∧ t.chan.read (3 * i + 1) = c.r ∧ t.chan.read (3 * i + 2) = c.b ∧
        (∀ a, a < 3 * i ∨ 3 * i + 3 ≤ a → t.chan.read a = s.chan.read a) ∧ t.chan.wf = true ∧
        t = { s with chan := t.chan, last := .returned .nothing }) ∧
    (s.cfg.n ≤ i → exec (.pSetColor i c) s = .fault .pixelIndexOutOfRange)

/-- R142 and 60_exceptions.md R203: `S.WRITE_RAW` changes exactly one slot; `enc`, `cursor` and every other field keep their
values; at `3*N` and beyond it faults. -/
def Obligations.WriteRawWritesItsOneSlot : Prop :=
  ∀ (s : State) (idx : Nat) (v : Byte), s.accepts .S →
    (idx < 3 * s.cfg.n → s.chan.wf = true →
      ∃ t, exec (.sWriteRaw idx v) s = .next t ∧
        t.chan.read idx = v ∧ (∀ a, a ≠ idx → t.chan.read a = s.chan.read a) ∧ t.chan.wf = true ∧
        t = { s with chan := t.chan, last := .returned .nothing }) ∧
    (3 * s.cfg.n ≤ idx → exec (.sWriteRaw idx v) s = .fault .slotIndexOutOfRange)

/-- R126: after `P.SET_COLOR i, c`, in the next state and in every later state whose pixel `i` no command has written since,
`P.READ_COLOR i` returns `c`, the raw slots are green, red, blue, and every other pixel reads as before the write. -/
def Obligations.SetThenReadColorReturnsTheColour : Prop :=
  ∀ (s t u : State) (i : Nat) (c : Colour), s.accepts .P → s.chan.wf = true →
    exec (.pSetColor i c) s = .next t → u.accepts .P → u.cfg = t.cfg →
    (∀ k, k < 3 → u.chan.read (3 * i + k) = t.chan.read (3 * i + k)) →
    exec (.pReadColor i) u = .next { u with last := .returned (.colour c) } ∧
    exec (.pReadRaw (3 * i)) u = .next { u with last := .returned (.byte c.g) } ∧
    exec (.pReadRaw (3 * i + 1)) u = .next { u with last := .returned (.byte c.r) } ∧
    exec (.pReadRaw (3 * i + 2)) u = .next { u with last := .returned (.byte c.b) } ∧
    ∀ j, j ≠ i → j < s.cfg.n → ∃ d,
      exec (.pReadColor j) s = .next { s with last := .returned (.colour d) } ∧
      exec (.pReadColor j) t = .next { t with last := .returned (.colour d) }

/-- 20_memory.md R65: `P.SET_COLOR` given twice with the same operands leaves the same state as given once. -/
def Obligations.SetColorIsIdempotent : Prop :=
  ∀ (s t : State) (i : Nat) (c : Colour), s.chan.wf = true → s.accepts .P →
    exec (.pSetColor i c) s = .next t → exec (.pSetColor i c) t = .next t

/-- R125, R129 and 30_encoding.md R83: the payload of `P.TRANSMIT` has `12 * N` bytes; byte `p` is byte `p mod 4` of the
encoding of slot `p div 4`; and it is the `F-PIXEL12` forms of the pixels in ascending order. -/
def Obligations.TransmitPayloadIsTheEncodedStrip : Prop :=
  ∀ s : State,
    (s.payload .chan).length = 12 * s.cfg.n ∧
    (∀ p, p < 12 * s.cfg.n → (s.payload .chan)[p]? = (Encoder.encode (s.chan.read (p / 4)))[p % 4]?) ∧
    s.payload .chan = (List.range s.cfg.n).flatMap fun i => Encoder.pixel12 (s.colourAt .P i)

/-- 70_reset_and_hazards.md R234: a `P.TRANSMIT` straight after `P.CONSTRUCT` starts, and sends `12 * N` bytes that are all `0x88`,
the encoding of black. -/
def Obligations.FreshStoreSendsBlack : Prop :=
  ∀ s : State, s.cfg.variant = .P → s.busy = false →
    ∃ t, exec .pConstruct s = .next t ∧ exec .pTransmit t = .next (t.startRun .chan) ∧
      (t.startRun .chan).payload .chan = List.replicate (12 * s.cfg.n) 0x88

/-- R144 to R149 and R151: where the colours fit, `S.WRITE_ALL` completes its fill before any operation: `cursor = 12 * k`,
each colour is in `enc` in wire order and in `chan` in red, green, blue order, every other byte of both buffers keeps its
value, and what starts is a transmission over the prefix of `enc`, with nothing sent. -/
def Obligations.WriteAllFillsBothBuffers : Prop :=
  ∀ (s : State) (cs : List Colour), s.accepts .S → s.fits cs → s.chan.wf = true → s.enc.wf = true →
    ∃ t, exec (.sWriteAll cs) s = .next t ∧
      t.cursor = 12 * cs.length ∧
      (∀ i c, cs[i]? = some c →
        t.enc.readList (12 * i) 12 = Encoder.encode c.g ++ Encoder.encode c.r ++ Encoder.encode c.b ∧
        t.chan.read (3 * i) = c.r ∧ t.chan.read (3 * i + 1) = c.g ∧ t.chan.read (3 * i + 2) = c.b) ∧
      (∀ a, 12 * cs.length ≤ a → t.enc.read a = s.enc.read a) ∧
      (∀ a, 3 * cs.length ≤ a → t.chan.read a = s.chan.read a) ∧
      t.chan.wf = true ∧ t.enc.wf = true ∧
      t = { s with
        chan := t.chan, enc := t.enc, cursor := t.cursor, seq := .idle, run := some .enc, last := .running, trace := [] }

/-- R149 and 43_sequencer.md R195: `S.WRITE_ALL` of no colour changes no slot and no byte of `enc`, sets the cursor to 0, and starts
a transmission of no payload, in which every byte sent is `0x00`. -/
def Obligations.EmptyWriteAllSendsOnlyPadBytes : Prop :=
  ∀ s : State, s.accepts .S →
    ∃ t, exec (.sWriteAll []) s = .next t ∧
      t = { s with cursor := 0, seq := .idle, run := some .enc, last := .running, trace := [] } ∧
      t.payload .enc = [] ∧
      sentBytes (opList t.cfg (t.payload .enc)) = List.replicate (1 + s.cfg.leadCycles + s.cfg.trailCycles) 0x00

/-- R150 and 60_exceptions.md R205, R211: a sequence that does not fit faults during the fill, whatever the transceiver would
answer: `TooManyColors` where the `N` pixels are full and `enc` holds them, `EncOverflow` where the first colour that does not
fit in `enc` still has a pixel. -/
def Obligations.WriteAllFaultsWhenItDoesNotFit : Prop :=
  ∀ (s : State) (cs : List Colour), s.accepts .S →
    (s.cfg.n < cs.length → 12 * s.cfg.n ≤ s.cfg.encCap → exec (.sWriteAll cs) s = .fault .tooManyColors) ∧
    (s.cfg.encCap < 12 * min cs.length s.cfg.n → exec (.sWriteAll cs) s = .fault .encOverflow)

/-- R153: after an `S.WRITE_ALL` that did not fault, in every later accepting state that still holds the same `chan` (its
transmission writes none), each written pixel reads back as its colour, raw slots red, green, blue, and every other pixel as
before the write. -/
def Obligations.WriteAllThenReadColorReturnsTheColour : Prop :=
  ∀ (s t u : State) (cs : List Colour), s.accepts .S → s.chan.wf = true →
    exec (.sWriteAll cs) s = .next t → u.accepts .S → u.cfg = t.cfg → u.chan = t.chan →
    (∀ i c, cs[i]? = some c →
      exec (.sReadColor i) u = .next { u with last := .returned (.colour c) } ∧
      exec (.sReadRaw (3 * i)) u = .next { u with last := .returned (.byte c.r) } ∧
      exec (.sReadRaw (3 * i + 1)) u = .next { u with last := .returned (.byte c.g) } ∧
      exec (.sReadRaw (3 * i + 2)) u = .next { u with last := .returned (.byte c.b) }) ∧
    ∀ i, cs.length ≤ i → i < s.cfg.n → ∃ d,
      exec (.sReadColor i) s = .next { s with last := .returned (.colour d) } ∧
      exec (.sReadColor i) u = .next { u with last := .returned (.colour d) }

/-- R128 and R152: the only commands that change a slot of `chan` are `SET_COLOR` and `CONSTRUCT` in `P`, and `WRITE_RAW`,
`WRITE_ALL` and `CONSTRUCT` in `S`; only `S.WRITE_ALL` and `S.CONSTRUCT` change `enc` or `cursor`. -/
def Obligations.OnlyTheseCommandsChangeTheBuffers : Prop :=
  ∀ (i : Instr) (s t : State), exec i s = .next t →
    (t.chan ≠ s.chan →
      (s.cfg.variant = .P ∧ (i = .pConstruct ∨ ∃ px c, i = .pSetColor px c)) ∨
      (s.cfg.variant = .S ∧ (i = .sConstruct ∨ (∃ idx v, i = .sWriteRaw idx v) ∨ ∃ cs, i = .sWriteAll cs))) ∧
    (t.enc ≠ s.enc ∨ t.cursor ≠ s.cursor → s.cfg.variant = .S ∧ (i = .sConstruct ∨ ∃ cs, i = .sWriteAll cs))

/-! ### Refusals and the order of checks (30_encoding.md R94 to R96, 60_exceptions.md R206, R211) -/

/-- R94: which command words are reserved, field by field, in both variants; such a word is the row `RESERVED.OP`. -/
def Obligations.ReservedWordsAreThoseOfTheTable : Prop :=
  ∀ (cfg : Config) (w : CmdWord) (colours : List ColourWord), colours.length = colourCount w →
    (decode cfg (.cmd w colours) = .ok (.reservedOp w) ↔
      7 ≤ (cmdOp w).toNat ∨ cmdRsv w ≠ 0 ∨
      (((cmdOp w).toNat = 0 ∨ (cmdOp w).toNat = 5) ∧ (cmdIdx w ≠ 0 ∨ cmdData w ≠ 0)) ∨
      (((cmdOp w).toNat = 1 ∨ (cmdOp w).toNat = 3 ∨ (cmdOp w).toNat = 6) ∧ cmdData w ≠ 0) ∨
      ((cmdOp w).toNat = 2 ∧ (cmdData w).extractLsb' 8 16 ≠ 0))

/-- R94, R95, R96, R211: a reserved word is refused; a command of the other variant is refused whether or not the store exists;
before construction every command but `CONSTRUCT` is refused; and nothing changes. Two things in it are the model's: that a refusal
is a next state, with its reason in `last` (log 5), and that it comes before `ConcurrentAccess` in a state in which a command runs
(log 10). -/
def Obligations.RefusedCommandsChangeNothing : Prop :=
  (∀ (w : CmdWord) (s : State), exec (.reservedOp w) s = .next { s with last := .refused .reservedEncoding }) ∧
  (∀ (i : Instr) (v : Variant) (s : State), rowVariant i = some v → s.cfg.variant ≠ v →
    exec i s = .next { s with last := .refused .notInVariant }) ∧
  (∀ (i : Instr) (s : State), rowVariant i = some s.cfg.variant → i ≠ .pConstruct → i ≠ .sConstruct →
    s.constructed = false → exec i s = .next { s with last := .refused .notConstructed })

/-- R206: a command of the instance's variant given while another command runs is `fault ConcurrentAccess`, `CONSTRUCT`
included (93_implementation_defined.md U18). -/
def Obligations.CommandDuringACommandFaults : Prop :=
  ∀ (i : Instr) (s : State), rowVariant i = some s.cfg.variant → s.constructed = true → s.busy = true →
    exec i s = .fault .concurrentAccess

/-! ### The Transmission Sequencer (43_sequencer.md) -/

/-- R171 and R191: the operation list has `1 + P + L + Q` sends and as many receives, `T = 2 * (1 + P + L + Q)` in all. -/
def Obligations.SendsAndReceivesAreEqualInNumber : Prop :=
  ∀ (cfg : Config) (p : List Byte),
    (opList cfg p).countP isSend = 1 + cfg.leadCycles + p.length + cfg.trailCycles ∧
    (opList cfg p).countP (fun op => !isSend op) = cfg.leadCycles + p.length + cfg.trailCycles + 1 ∧
    (opList cfg p).length = 2 * (1 + cfg.leadCycles + p.length + cfg.trailCycles)

/-- R171: the operation at each index of the list, as the table of the rule gives it. -/
def Obligations.OperationListIsTheTable : Prop :=
  ∀ (cfg : Config) (p : List Byte) (j : Nat), j < 2 * (1 + cfg.leadCycles + p.length + cfg.trailCycles) →
    (opList cfg p)[j]? = some (
      if j = 0 then .send 0x00
      else if j ≤ 2 * cfg.leadCycles then (if j % 2 = 1 then .send 0x00 else .recv)
      else if j ≤ 2 * cfg.leadCycles + 2 * p.length then
        (if (j - 2 * cfg.leadCycles - 1) % 2 = 0 then .send (p.getD ((j - 2 * cfg.leadCycles - 1) / 2) 0) else .recv)
      else if j ≤ 2 * cfg.leadCycles + 2 * p.length + 2 * cfg.trailCycles then
        (if j % 2 = 1 then .send 0x00 else .recv)
      else .recv)

/-- R193: every `SEND` but the lead byte is followed at once by a `RECV`, and every `RECV` but the final drain is preceded at
once by a `SEND` that is not the lead byte; the list begins with the lead `SEND` and ends with the drain, and at the two ends (of
a list with any cycle) it reads `SEND, SEND` and `RECV, RECV`. -/
def Obligations.EverySendIsPairedWithItsReceive : Prop :=
  ∀ (cfg : Config) (p : List Byte),
    (opList cfg p)[0]? = some (.send 0x00) ∧ (opList cfg p).getLast? = some .recv ∧
    (∀ j b, 1 ≤ j → (opList cfg p)[j]? = some (.send b) → (opList cfg p)[j + 1]? = some .recv) ∧
    (∀ j, j + 1 < (opList cfg p).length → (opList cfg p)[j]? = some .recv →
      2 ≤ j ∧ ∃ b, (opList cfg p)[j - 1]? = some (.send b)) ∧
    (2 < (opList cfg p).length →
      (∃ b, (opList cfg p)[1]? = some (.send b)) ∧ (opList cfg p)[(opList cfg p).length - 2]? = some .recv)

/-- 30_encoding.md R84: the bytes sent by one transmission are the frame: lead byte, optional lead pad, payload, trailing pad;
its length is `1 + P + L + Q`. -/
def Obligations.SentBytesAreTheFrame : Prop :=
  ∀ (cfg : Config) (p : List Byte),
    sentBytes (opList cfg p) =
      [0x00] ++ List.replicate (if cfg.idlePad then cfg.leadPadLen else 0) 0x00 ++ p ++
        List.replicate cfg.trailPadLen 0x00 ∧
    (sentBytes (opList cfg p)).length = 1 + (if cfg.idlePad then cfg.leadPadLen else 0) + p.length + cfg.trailPadLen

/-- R179, R184, R186 to R188: where the sequencer issues `SEND(b)` and the transceiver answers `ok`, `XCVR.SEND b` completes:
the operation is in the trace, the position moves as the state machine says (internal transitions fused), and nothing else
changes. -/
def Obligations.SendAnsweredOkAdvancesTheSequencer : Prop :=
  ∀ (s : State) (src : Source) (b v : Byte),
    s.run = some src → s.issues = some (.send b) → s.xcvr.answer = .ok v →
    ∃ t, exec (.xcvrSend b) s = .next t ∧
      t = { s with seq := t.seq, trace := s.trace ++ [{ op := .send b, reply := .ok }], xcvr := s.xcvr.answered } ∧
      (∀ p c, s.seq = .pos p c .tx → t.seq = .pos p c .rx) ∧
      (s.seq = .idle → b = 0x00 ∧
        t.seq = if s.cfg.idlePad = true ∧ 0 < s.cfg.leadPadLen then .pos .optionalIdlePad 0 .tx
          else Seq.fromPayload s.cfg (s.payloadLen src))

/-- R180, R181, R186 to R189: where the sequencer issues `RECV` and the transceiver answers `ok(v)`, `XCVR.RECV` completes: the
next cycle of the phase, or the next phase, and after the final drain `Idle` with the result `Ok`; the byte `v` is in the ghost
trace and nowhere else. -/
def Obligations.RecvAnsweredOkAdvancesTheSequencer : Prop :=
  ∀ (s : State) (src : Source) (v : Byte),
    s.run = some src → s.issues = some .recv → s.xcvr.answer = .ok v →
    ∃ t, exec .xcvrRecv s = .next t ∧
      t = { s with
        seq := t.seq, run := t.run, last := t.last
        trace := s.trace ++ [{ op := .recv, reply := .okByte v }], xcvr := s.xcvr.answered } ∧
      (∀ c h, s.seq = .pos .draining c h → t.seq = .idle ∧ t.run = none ∧ t.last = .returned .ok) ∧
      ((∀ c h, s.seq ≠ .pos .draining c h) → t.run = s.run ∧ t.last = s.last) ∧
      (∀ c h, s.seq = .pos .optionalIdlePad c h →
        t.seq = if c + 1 < s.cfg.leadPadLen then .pos .optionalIdlePad (c + 1) .tx
          else Seq.fromPayload s.cfg (s.payloadLen src)) ∧
      (∀ c h, s.seq = .pos .payloadStreaming c h →
        t.seq = if c + 1 < s.payloadLen src then .pos .payloadStreaming (c + 1) .tx
          else Seq.fromPayload s.cfg 0) ∧
      (∀ c h, s.seq = .pos .trailingPad c h →
        t.seq = if c + 1 < s.cfg.trailPadLen then .pos .trailingPad (c + 1) .tx else .pos .draining 0 .rx)

/-- R177, R190 and 60_exceptions.md R200 to R202, R212, R213: wherever an operation answers `err(e)`, the sequencer is idle at
once and the running command returns `Err(e)` with the same `e`; the failing operation ends the trace, and nothing else of the
machine changes. -/
def Obligations.TransceiverErrorAbortsAtOnce : Prop :=
  ∀ (s : State) (e : ChannelError), s.xcvr.answer = .err e →
    (∀ b, s.issues = some (.send b) →
      exec (.xcvrSend b) s = .next { s with
        seq := .idle, run := none, last := .returned (.err e)
        trace := s.trace ++ [{ op := .send b, reply := .err e }], xcvr := s.xcvr.answered }) ∧
    (s.issues = some .recv →
      exec .xcvrRecv s = .next { s with
        seq := .idle, run := none, last := .returned (.err e)
        trace := s.trace ++ [{ op := .recv, reply := .err e }], xcvr := s.xcvr.answered })

/-- R208, and 93_implementation_defined.md U4 for the second clause (log 11): an operation that is never answered stops the machine
where it stands, and an operation that is not the one the sequencer issues is another party's use of the transceiver. -/
def Obligations.UnansweredOrForeignOperationsStop : Prop :=
  ∀ (s : State) (op : XcvrOp) (i : Instr),
    (∃ b, op = .send b ∧ i = .xcvrSend b) ∨ (op = .recv ∧ i = .xcvrRecv) →
    (s.issues = some op → s.xcvr.answer = .never → exec i s = .fault .stalled) ∧
    (s.issues ≠ some op → exec i s = .fault .concurrentAccess)

/-- R171, R178, R182, R192: `SEQ.RUN` on a list starts its transmission, whatever the transceiver will answer; when it answers
`ok` to all `T` operations, the `T` steps that follow issue exactly the operation list, end idle with the result `Ok` and no byte
in flight, and change nothing else. That it starts on any list, in every state in which no command runs, is the model's choice
(log 20): R170 has it run only as the last part of `P.TRANSMIT` or `S.WRITE_ALL`. -/
def Obligations.SeqRunSendsItsPayloadAndReturnsOk : Prop :=
  ∀ (s : State) (p : List Byte), s.busy = false →
    exec (.seqRun p) s = .next (s.startRun (.given p)) ∧
    ∀ (vs : List Byte) (y : Xcvr), vs.length = s.cfg.opCount p.length → s.xcvr.answersOk vs y →
      ∃ u, (s.startRun (.given p)).runs (s.cfg.opCount p.length) = .next u ∧
        u = { s with
          seq := .idle, run := none, last := .returned .ok
          trace := okTrace (opList s.cfg p) vs, xcvr := y } ∧
        u.inflight = 0

/-- R124, R127, R129, R171: `P.TRANSMIT` completes. In every accepting state, whatever the transceiver will answer, it starts the
transmission of `chan` (what follows an error or no answer, `FirstErrorEndsTheTransmission`, `PositionFollowsTheOperationIndex` and
`TransmissionEndsInOneOfThreeWays` say of every started transmission); when the transceiver answers `ok` throughout, the
`T = 2 * (1 + P + 12*N + Q)` steps that follow issue exactly the operation list over the encoded strip and return `Ok`; `chan`
and everything else is as it was before the command. -/
def Obligations.TransmitSendsTheWholeStripAndReturnsOk : Prop :=
  ∀ s : State, s.accepts .P →
    exec .pTransmit s = .next (s.startRun .chan) ∧
    ∀ (vs : List Byte) (y : Xcvr),
      vs.length = 2 * (1 + s.cfg.leadCycles + 12 * s.cfg.n + s.cfg.trailCycles) → s.xcvr.answersOk vs y →
      ∃ u, (s.startRun .chan).runs vs.length = .next u ∧
        u = { s with
          last := .returned .ok, trace := okTrace (opList s.cfg (s.payload .chan)) vs
          xcvr := y }

/-- R191: a run in which every operation answers `ok` issues `1 + P + L + Q` sends and as many receives, `T` operations in all; with
the document's literals `141 + L` sends, or `281 + L` with `IDLE_PAD` on; and `L` is `12 * N` for `P.TRANSMIT`, `12 * k` for
`S.WRITE_ALL` of `k` colours. -/
def Obligations.SuccessfulRunCounts : Prop :=
  (∀ (s : State) (src : Source) (vs : List Byte) (y : Xcvr),
    vs.length = s.cfg.opCount (s.payloadLen src) → s.xcvr.answersOk vs y →
    ∃ u, (s.startRun src).runs vs.length = .next u ∧ u.last = .returned .ok ∧
      sendCount u.trace = 1 + s.cfg.leadCycles + s.payloadLen src + s.cfg.trailCycles ∧
      recvCount u.trace = s.cfg.leadCycles + s.payloadLen src + s.cfg.trailCycles + 1 ∧
      sendCount u.trace = recvCount u.trace ∧
      u.trace.length = 2 * (1 + s.cfg.leadCycles + s.payloadLen src + s.cfg.trailCycles) ∧
      (∀ v n, s.cfg = Config.ofStraps v n false → sendCount u.trace = 141 + s.payloadLen src) ∧
      (∀ v n, s.cfg = Config.ofStraps v n true → sendCount u.trace = 281 + s.payloadLen src)) ∧
  (∀ s : State, s.payloadLen .chan = 12 * s.cfg.n) ∧
  (∀ (s t : State) (cs : List Colour), exec (.sWriteAll cs) s = .next t → t.last = .running →
    t.payloadLen .enc = 12 * cs.length)

/-- R144, R145, R148, R171: `S.WRITE_ALL` completes: where the colours fit and the transceiver answers `ok` throughout, it returns
`Ok` after `T = 2 * (1 + P + 12*k + Q)` operations, which are the operation list over the `F-PIXEL12` forms of the colours in
order; the buffers stay as the fill left them. -/
def Obligations.WriteAllSendsItsColoursAndReturnsOk : Prop :=
  ∀ (s : State) (cs : List Colour) (vs : List Byte) (y : Xcvr),
    s.accepts .S → s.fits cs → s.chan.wf = true → s.enc.wf = true →
    vs.length = 2 * (1 + s.cfg.leadCycles + 12 * cs.length + s.cfg.trailCycles) → s.xcvr.answersOk vs y →
    ∃ t u, exec (.sWriteAll cs) s = .next t ∧ t.runs vs.length = .next u ∧
      u = { s with
        chan := t.chan, enc := t.enc, cursor := 12 * cs.length
        last := .returned .ok
        trace := okTrace (opList s.cfg (cs.flatMap fun c =>
          Encoder.encode c.g ++ Encoder.encode c.r ++ Encoder.encode c.b)) vs
        xcvr := y }

/-- R177, R192, R215, 60_exceptions.md R212 to R214: a transmission whose operation `j` is the first to answer `err(e)` ends there:
its trace is `ops[0] .. ops[j]`, the first `j` answered `ok`, and it returns `Err(e)`; the buffers are as they were, and the bytes
in flight before the failing operation stay undrained. -/
def Obligations.FirstErrorEndsTheTransmission : Prop :=
  ∀ (s : State) (src : Source) (vs : List Byte) (e : ChannelError) (y : Xcvr),
    vs.length < s.cfg.opCount (s.payloadLen src) → s.xcvr.answersOk vs y → y.answer = .err e →
    ∃ op u, (opList s.cfg (s.payload src))[vs.length]? = some op ∧
      (s.startRun src).runs (vs.length + 1) = .next u ∧
      u = { s with
        seq := .idle, run := none, last := .returned (.err e)
        trace := okTrace (opList s.cfg (s.payload src)) vs ++ [{ op := op, reply := .err e }]
        xcvr := y.answered } ∧
      u.inflight = (if vs.length = 0 then 0
        else if isSend op = true then 1
        else if vs.length = s.cfg.opCount (s.payloadLen src) - 1 then 1 else 2)

/-- R194, R192, 60_exceptions.md R208: when `j` operations of a transmission have been answered `ok`, the sequencer stands at the
position the rule gives for `j` and issues `ops[j]`, with 0, 1 or 2 bytes in flight as R192 says; if that operation is never
answered the machine stays there, and the step says so. -/
def Obligations.PositionFollowsTheOperationIndex : Prop :=
  ∀ (s : State) (src : Source) (vs : List Byte) (y : Xcvr),
    vs.length < s.cfg.opCount (s.payloadLen src) → s.xcvr.answersOk vs y →
    ∃ u, (s.startRun src).runs vs.length = .next u ∧
      u.seq = Seq.ofIndex s.cfg (s.payloadLen src) vs.length ∧
      u.issues = (opList s.cfg (s.payload src))[vs.length]? ∧
      u.trace = okTrace (opList s.cfg (s.payload src)) vs ∧
      u.inflight = (if vs.length = 0 then 0
        else if vs.length = s.cfg.opCount (s.payloadLen src) - 1 then 1
        else if vs.length % 2 = 1 then 1 else 2) ∧
      u.xcvr = y ∧ (y.answer = .never → step u = .fault .stalled)

/-- R178: with nothing else waiting at the ports, a transmission of `T` operations has, after `T` steps, returned `Ok` or
`Err(e)`, or is stuck at an operation that is never answered; nothing else can happen. -/
def Obligations.TransmissionEndsInOneOfThreeWays : Prop :=
  ∀ (s : State) (src : Source), s.cmds = [] → s.units = [] →
    (∃ u, (s.startRun src).runs (s.cfg.opCount (s.payloadLen src)) = .next u ∧ u.run = none ∧ u.seq = .idle ∧
      (u.last = .returned .ok ∨ ∃ e, u.last = .returned (.err e))) ∨
    (s.startRun src).runs (s.cfg.opCount (s.payloadLen src)) = .fault .stalled

/-- R192: while a transmission runs without a failure, `inflight` before the operation at each position is 0, 1 or 2 as the rule
says (the states are those of the machine's invariant). -/
def Obligations.InflightFollowsThePosition : Prop :=
  ∀ s : State, s.Inv → s.run.isSome = true → s.inflight = s.seq.inflightBefore

/-- R179 with 30_encoding.md R93: the only bytes a command's transmission sends are `0x00` and the four waveform bytes, and the
payload is never `0x00`. -/
def Obligations.OnlyPadAndWaveformBytesAreSent : Prop :=
  ∀ (s : State) (b : Byte), s.Inv → s.issues = some (.send b) → s.run = some .chan ∨ s.run = some .enc →
    (b = 0x00 ∨ b = 0x88 ∨ b = 0x8E ∨ b = 0xE8 ∨ b = 0xEE) ∧
    ((∃ k, s.seq = .pos .payloadStreaming k .tx) ↔ b ≠ 0x00)

/-- R127, R151, 60_exceptions.md R213: while a transmission runs, no step changes the store, whatever the transceiver answers. -/
def Obligations.TransmissionLeavesTheStoreAlone : Prop :=
  ∀ (s t : State), s.busy = true → step s = .next t →
    t.chan = s.chan ∧ t.enc = s.enc ∧ t.cursor = s.cursor ∧ t.constructed = s.constructed ∧
    t.cmds = s.cmds ∧ t.colours = s.colours

/-! ### The step -/

/-- 30_encoding.md R88: between commands the step takes the first command word with exactly its colour words and runs the
instruction they decode to; until all the colour words are there, and when there is no word, the block is idle (logs 4, 21). -/
def Obligations.StepRunsTheCommandAtThePort : Prop :=
  ∀ (s : State), s.busy = false → s.units = [] →
    (s.cmds = [] → step s = .next s) ∧
    ∀ w ws, s.cmds = w :: ws →
      (s.colours.length < colourCount w → step s = .next s) ∧
      (colourCount w ≤ s.colours.length → ∃ i,
        decode s.cfg (.cmd w (s.colours.take (colourCount w))) = .ok i ∧ i.wellFormed = true ∧
        step s = exec i { s with cmds := ws, colours := s.colours.drop (colourCount w) })

/-- R183 to R189: while a transmission runs, the step is the operation the sequencer issues; the word on the transceiver port
decodes to it. Between commands, a word at a component that decodes is run (log 12). -/
def Obligations.StepRunsTheSequencersOperation : Prop :=
  (∀ (s : State) (b : Byte), s.busy = true → s.issues = some (.send b) → step s = exec (.xcvrSend b) s) ∧
  (∀ s : State, s.busy = true → s.issues = some .recv → step s = exec .xcvrRecv s) ∧
  (∀ (s : State) (ws : Words) (us : List Words) (i : Instr), s.busy = false → s.units = ws :: us →
    decode s.cfg ws = .ok i → step s = exec i { s with units := us })

/-- 00_scope.md R16, 30_encoding.md R94: no command word makes a step end without a meaning. -/
def Obligations.NoCommandIsWithoutMeaning : Prop :=
  ∀ (s : State) (r : Refusal), s.units = [] → step s ≠ .refused r

/-- 10_state.md R35, R46: no step changes a strap or a capacity. -/
def Obligations.NoStepChangesTheParameters : Prop :=
  ∀ s t : State, step s = .next t → t.cfg = s.cfg

/-- 43_sequencer.md R181: the bytes that `RECV`s return change neither the operations nor any answer: replacing them all by any
others changes the replies in the ghost trace and nothing else. -/
def Obligations.ReceivedBytesHaveNoEffect : Prop :=
  ∀ (f : Byte → Byte) (s : State), step (s.mapReceived f) = mapNext (State.mapReceived f) (step s)

/-- 60_exceptions.md R200, 00_scope.md R11: the block never looks into an error value: renaming the values commutes with every
step. -/
def Obligations.ErrorValuesAreNeverInspected : Prop :=
  ∀ (f : ChannelError → ChannelError) (s : State), step (s.mapErr f) = mapNext (State.mapErr f) (step s)

/-- 70_reset_and_hazards.md R236, R237: at any other clock rate or mode the block behaves identically. -/
def Obligations.LinkConfigurationHasNoEffect : Prop :=
  ∀ (l : Link) (s : State), step (s.withLink l) = mapNext (State.withLink · l) (step s)

/-- 10_state.md R27, R30, R33, 20_memory.md R66, 43_sequencer.md R171, R194: the invariant of the machine (`State.Inv`): the
buffers are canonical and inside their spaces, the cursor is a multiple of 12 within `ENC_CAP` over waveform bytes, `seq` is
`Idle` between commands and legal in a transmission, and the trace of a transmission is the operations before its position.
Every step keeps it. -/
def Obligations.EveryStepKeepsTheInvariant : Prop :=
  ∀ s t : State, s.Inv → step s = .next t → t.Inv

/-- The reset state meets the invariant. -/
def Obligations.ResetMeetsTheInvariant : Prop := State.reset.Inv

/-! ### Encodings (30_encoding.md) -/

/-- R86 to R97: decoding the words of a well-formed instruction gives the instruction back, in every instance; a row whose words
the other variant shares is read as that variant's row, and the general row `WAVE` as the row of its byte. -/
def Obligations.DecodingAnEncodedInstructionGivesItBack : Prop :=
  ∀ (cfg : Config) (i : Instr), i.wellFormed = true → decode cfg (encode cfg i) = .ok (i.asRead cfg.variant)

/-- R94 with 92_eei_decisions.md D3: "each command has exactly one encoding": a command word that is not reserved, with its
colour words, is the encoding of the instruction it decodes to. -/
def Obligations.EachCommandHasOneEncoding : Prop :=
  ∀ (cfg : Config) (w : CmdWord) (colours : List ColourWord) (i : Instr), isReserved w = false →
    decode cfg (.cmd w colours) = .ok i → encode cfg i = .cmd w colours

/-- R94, R95, R97: whatever words the decoder accepts, the instruction is well-formed, and a command word never stands for a
component's row. -/
def Obligations.DecodedInstructionsAreWellFormed : Prop :=
  ∀ (cfg : Config) (ws : Words) (i : Instr), decode cfg ws = .ok i →
    i.wellFormed = true ∧
    ∀ w colours, ws = .cmd w colours → (∃ v, rowVariant i = some v) ∨ i = .reservedOp w

/-- R97, R85, R87, R81: words of the spec's own examples and tables decode to their instructions. -/
def Obligations.ExampleWordsDecode : Prop :=
  decode (Config.ofStraps .P 3 false) (.cmd 0x40000100FF00 []) = .ok (.pSetColor 1 { r := 0x00, g := 0xFF, b := 0x00 }) ∧
  decode (Config.ofStraps .P 3 false) (.cmd 0x500000000000 []) = .ok .pTransmit ∧
  decode (Config.ofStraps .S 3 false) (.cmd 0x20000500007F []) = .ok (.sWriteRaw 5 0x7F) ∧
  decode (Config.ofStraps .S 3 false) (.cmd 0x600002000000 [0x123456, 0xFF8001]) =
    .ok (.sWriteAll [{ r := 0x12, g := 0x34, b := 0x56 }, { r := 0xFF, g := 0x80, b := 0x01 }]) ∧
  decode (Config.ofStraps .P 3 false) (.xcvr 0x0EE) = .ok (.xcvrSend 0xEE) ∧
  decode (Config.ofStraps .P 3 false) (.xcvr 0x100) = .ok .xcvrRecv ∧
  decode (Config.ofStraps .P 3 false) (.xcvr 0x101) = .error .reservedXcvr ∧
  decode (Config.ofStraps .P 3 false) (.wave 0xE8) = .ok .wave10 ∧
  decode (Config.ofStraps .P 3 false) (.chan4 0x888EE8EE) = .ok (.encodeChan 0x1B)

/-! ### Time (70_reset_and_hazards.md) -/

/-- R251 to R253: a source bit 1 is high three bit times and low one, a source bit 0 the other way round; a frame of `L` payload
bytes lasts `8 * (1 + P + L + Q) / f` with bytes back to back, 472 microseconds for 3 pixels at 3.0 MHz; a pad of 140 bytes lasts
560 microseconds at 2.0 MHz. -/
def Obligations.FrameTimeIsProportionalToItsBytes : Prop :=
  (∀ l : Link, l.highTime true = 3 / l.clockHz ∧ l.lowTime true = 1 / l.clockHz ∧
    l.highTime false = 1 / l.clockHz ∧ l.lowTime false = 3 / l.clockHz) ∧
  (∀ (l : Link) (cfg : Config) (p : List Byte),
    l.frameTime cfg p.length = 8 * (sentBytes (opList cfg p)).length / l.clockHz) ∧
  (∀ l : Link, l.clockHz = 3000000 → l.frameTime (Config.ofStraps .P 3 false) 36 = 472 / 1000000) ∧
  (∀ l : Link, l.clockHz = 2000000 → l.padTime 140 = 560 / 1000000)

/-! ### The transceiver as an oracle (10_state.md R29, 60_exceptions.md R221, R224) -/

/-- 10_state.md R29, 60_exceptions.md R221: the transceiver's answer is an input of the block's step (`Block.respond`), which reads
no transceiver; and the machine's transceiver stands for every oracle: for every `o`, history or not, and every number of
operations, some list of answers makes the machine's block do what the block does before `o`, its end in a stall included. The
transceiver's place in `State`, beside the block, is the model's choice (log 2). -/
def Obligations.EveryOracleIsAScript : Prop :=
  (∀ (s : State) (op : XcvrOp), s.issues = some op →
    step s = match s.toBlock.respond op s.xcvr.answer with
      | .ok b => .next { s with toBlock := b, xcvr := s.xcvr.answered }
      | .error f => .fault f) ∧
  ∀ (o : Oracle) (past : List Event) (s : State) (k : Nat), s.cmds = [] → s.units = [] →
    ∃ x : Xcvr, match s.toBlock.runUnder o past k with
      | .ok b => ∃ y, State.runs { s with xcvr := x } k = .next { s with toBlock := b, xcvr := y }
      | .error f => State.runs { s with xcvr := x } k = .fault f

/-- R224: before `AlwaysOk(v)` every `P.TRANSMIT` and every `S.WRITE_ALL` that does not fault returns `Ok` with the full trace, each
`RECV` answered `v`; before `FailAt(j, e)` with `j < T` it returns `Err(e)` with the trace `ops[0] .. ops[j]`, the first `j`
answered `ok` with `0x00`, whatever the transceiver would answer afterwards. -/
def Obligations.ReferenceOraclesGiveTheirEnds : Prop :=
  ∀ (s t : State) (src : Source) (v : Byte) (l : Link) (j : Nat) (e : ChannelError) (after : Xcvr),
    (s.accepts .P ∧ src = .chan ∧ exec .pTransmit s = .next t) ∨
      (s.accepts .S ∧ src = .enc ∧ ∃ cs, exec (.sWriteAll cs) s = .next t) →
    (s.xcvr = Xcvr.alwaysOk v l →
      ∃ u, t.runs (t.cfg.opCount (t.payloadLen src)) = .next u ∧ u.last = .returned .ok ∧
        u.trace = okTrace (opList t.cfg (t.payload src)) (List.replicate (t.cfg.opCount (t.payloadLen src)) v)) ∧
    (s.xcvr = Xcvr.failAt j e after → j < t.cfg.opCount (t.payloadLen src) →
      ∃ u op, t.runs (j + 1) = .next u ∧ u.last = .returned (.err e) ∧
        (opList t.cfg (t.payload src))[j]? = some op ∧
        u.trace = okTrace (opList t.cfg (t.payload src)) (List.replicate j 0x00) ++ [{ op := op, reply := .err e }])
end

