-- ==== Sys2Proof/Laws/Decode.lean ====
section
/-! SUPPORT. Fields of the words: what is packed is what is pulled out, and back. -/

namespace Sys2Proof

theorem cmdWord_toNat (op : BitVec 4) (idx : BitVec 16) (data : BitVec 24) :
    (cmdWord op idx data).toNat = 2 ^ 44 * op.toNat + 2 ^ 24 * idx.toNat + data.toNat := by
  have h1 := op.isLt
  have h2 := idx.isLt
  have h3 := data.isLt
  simp only [cmdWord, BitVec.toNat_ofNat]
  omega

@[simp] theorem cmdOp_cmdWord (op : BitVec 4) (idx : BitVec 16) (data : BitVec 24) : cmdOp (cmdWord op idx data) = op := by
  have h1 := op.isLt
  have h2 := idx.isLt
  have h3 := data.isLt
  apply BitVec.eq_of_toNat_eq
  simp only [cmdOp, BitVec.extractLsb'_toNat, cmdWord_toNat, Nat.shiftRight_eq_div_pow, Nat.reducePow]
  omega

@[simp] theorem cmdRsv_cmdWord (op : BitVec 4) (idx : BitVec 16) (data : BitVec 24) : cmdRsv (cmdWord op idx data) = 0 := by
  have h1 := op.isLt
  have h2 := idx.isLt
  have h3 := data.isLt
  apply BitVec.eq_of_toNat_eq
  simp only [cmdRsv, BitVec.extractLsb'_toNat, cmdWord_toNat, Nat.shiftRight_eq_div_pow,
    BitVec.ofNat_eq_ofNat, BitVec.toNat_ofNat, Nat.reducePow]
  omega

@[simp] theorem cmdIdx_cmdWord (op : BitVec 4) (idx : BitVec 16) (data : BitVec 24) : cmdIdx (cmdWord op idx data) = idx := by
  have h1 := op.isLt
  have h2 := idx.isLt
  have h3 := data.isLt
  apply BitVec.eq_of_toNat_eq
  simp only [cmdIdx, BitVec.extractLsb'_toNat, cmdWord_toNat, Nat.shiftRight_eq_div_pow, Nat.reducePow]
  omega

@[simp] theorem cmdData_cmdWord (op : BitVec 4) (idx : BitVec 16) (data : BitVec 24) :
    cmdData (cmdWord op idx data) = data := by
  have h1 := op.isLt
  have h2 := idx.isLt
  have h3 := data.isLt
  apply BitVec.eq_of_toNat_eq
  simp only [cmdData, BitVec.extractLsb'_toNat, cmdWord_toNat, Nat.shiftRight_eq_div_pow, Nat.reducePow]
  omega

/-- A command word whose `rsv` is 0 is made of its other fields. -/
theorem cmdWord_fields {w : CmdWord} (h : cmdRsv w = 0) : cmdWord (cmdOp w) (cmdIdx w) (cmdData w) = w := by
  have hw := w.isLt
  have h0 : (cmdRsv w).toNat = 0 := by rw [h]; rfl
  apply BitVec.eq_of_toNat_eq
  simp only [cmdRsv, BitVec.extractLsb'_toNat, Nat.shiftRight_eq_div_pow] at h0
  simp only [cmdWord_toNat, cmdOp, cmdIdx, cmdData, BitVec.extractLsb'_toNat, Nat.shiftRight_eq_div_pow, Nat.reducePow]
  omega

theorem packColour_toNat (c : Colour) : (packColour c).toNat = 2 ^ 16 * c.r.toNat + 2 ^ 8 * c.g.toNat + c.b.toNat := by
  have h1 := c.r.isLt
  have h2 := c.g.isLt
  have h3 := c.b.isLt
  simp only [packColour, BitVec.toNat_ofNat]
  omega

@[simp] theorem unpackColour_packColour (c : Colour) : unpackColour (packColour c) = c := by
  have h1 := c.r.isLt
  have h2 := c.g.isLt
  have h3 := c.b.isLt
  have hr : (packColour c).extractLsb' 16 8 = c.r := by
    apply BitVec.eq_of_toNat_eq
    simp only [BitVec.extractLsb'_toNat, packColour_toNat, Nat.shiftRight_eq_div_pow]
    omega
  have hg : (packColour c).extractLsb' 8 8 = c.g := by
    apply BitVec.eq_of_toNat_eq
    simp only [BitVec.extractLsb'_toNat, packColour_toNat, Nat.shiftRight_eq_div_pow]
    omega
  have hb : (packColour c).extractLsb' 0 8 = c.b := by
    apply BitVec.eq_of_toNat_eq
    simp only [BitVec.extractLsb'_toNat, packColour_toNat, Nat.shiftRight_eq_div_pow]
    omega
  simp only [unpackColour, hr, hg, hb]

@[simp] theorem packColour_unpackColour (w : ColourWord) : packColour (unpackColour w) = w := by
  have hw := w.isLt
  apply BitVec.eq_of_toNat_eq
  simp only [packColour_toNat, unpackColour, BitVec.extractLsb'_toNat, Nat.shiftRight_eq_div_pow, Nat.reducePow]
  omega

@[simp] theorem map_unpack_pack (cs : List Colour) : (cs.map packColour).map unpackColour = cs := by
  simp [List.map_map, Function.comp_def]

@[simp] theorem map_pack_unpack (ws : List ColourWord) : (ws.map unpackColour).map packColour = ws := by
  simp [List.map_map, Function.comp_def]

/-- An index that fits the field is the number in the field. -/
theorem ofNat_toNat_of_fits {i : Nat} (h : fitsIdx i = true) : (BitVec.ofNat 16 i).toNat = i := by
  have h' : i < 2 ^ 16 := of_decide_eq_true h
  simp only [BitVec.toNat_ofNat]
  omega

/-- The number in the field fits. -/
theorem fits_cmdIdx (w : CmdWord) : fitsIdx (cmdIdx w).toNat = true := by
  have h : (cmdIdx w).toNat < 2 ^ Config.idxWidth := (cmdIdx w).isLt
  exact decide_eq_true h

/-- The byte operand of `S.WRITE_RAW` in its data field. -/
theorem byte_in_data (v : Byte) :
    (v.setWidth 24).extractLsb' 0 8 = v ∧ (v.setWidth 24).extractLsb' 8 16 = 0 := by
  have hv := v.isLt
  constructor
  · apply BitVec.eq_of_toNat_eq
    simp only [BitVec.extractLsb'_toNat, BitVec.toNat_setWidth, Nat.shiftRight_eq_div_pow]
    omega
  · apply BitVec.eq_of_toNat_eq
    simp only [BitVec.extractLsb'_toNat, BitVec.toNat_setWidth, Nat.shiftRight_eq_div_pow, BitVec.ofNat_eq_ofNat,
      BitVec.toNat_ofNat]
    omega

/-- A data field whose upper part is 0 is its byte. -/
theorem data_of_byte {d : BitVec 24} (h : d.extractLsb' 8 16 = 0) : (d.extractLsb' 0 8).setWidth 24 = d := by
  have hd := d.isLt
  have h0 : (d.extractLsb' 8 16).toNat = 0 := by rw [h]; rfl
  apply BitVec.eq_of_toNat_eq
  simp only [BitVec.extractLsb'_toNat, Nat.shiftRight_eq_div_pow] at h0
  simp only [BitVec.toNat_setWidth, BitVec.extractLsb'_toNat, Nat.shiftRight_eq_div_pow, Nat.reducePow]
  omega

/-! ### Reserved words and word counts -/

theorem colourCount_cmdWord (op : BitVec 4) (idx : BitVec 16) (data : BitVec 24) :
    colourCount (cmdWord op idx data) = if op = 6 then idx.toNat else 0 := by simp [colourCount]

/-- Which command words are reserved, field by field (30_encoding.md R94). -/
theorem isReserved_iff (w : CmdWord) : isReserved w = true ↔
    7 ≤ (cmdOp w).toNat ∨ cmdRsv w ≠ 0 ∨
    (((cmdOp w).toNat = 0 ∨ (cmdOp w).toNat = 5) ∧ (cmdIdx w ≠ 0 ∨ cmdData w ≠ 0)) ∨
    (((cmdOp w).toNat = 1 ∨ (cmdOp w).toNat = 3 ∨ (cmdOp w).toNat = 6) ∧ cmdData w ≠ 0) ∨
    ((cmdOp w).toNat = 2 ∧ (cmdData w).extractLsb' 8 16 ≠ 0) := by
  unfold isReserved
  generalize (cmdOp w).toNat = k
  match k with
  | 0 | 1 | 2 | 3 | 4 | 5 | 6 => simp
  | k + 7 => simp

/-! ### The other formats -/

@[simp] theorem framePayload_frameBytes (cfg : Config) (p : List Byte) : framePayload cfg (frameBytes cfg p) = p := by
  have e : frameBytes cfg p =
      (0x00 :: List.replicate cfg.leadCycles 0x00) ++ (p ++ List.replicate cfg.trailCycles 0x00) := by
    simp [frameBytes, List.append_assoc]
  have hl : (frameBytes cfg p).length = 1 + cfg.leadCycles + p.length + cfg.trailCycles := by
    simp [frameBytes]; omega
  unfold framePayload
  rw [hl, e, List.drop_left' (by simp; omega),
    show 1 + cfg.leadCycles + p.length + cfg.trailCycles - (1 + cfg.leadCycles + cfg.trailCycles) = p.length by omega,
    List.take_left']
  rfl

theorem decodeXcvr_xcvrWord (op : XcvrOp) : decodeXcvr (xcvrWord op) =
    .ok (match op with
      | .send b => .xcvrSend b
      | .recv => .xcvrRecv) := by
  cases op with
  | recv => rfl
  | send b =>
    have hb := b.isLt
    have hn : (xcvrWord (.send b)).toNat = b.toNat := by simp only [xcvrWord, BitVec.toNat_ofNat]; omega
    unfold decodeXcvr
    rw [if_pos (by omega)]
    congr 2
    apply BitVec.eq_of_toNat_eq
    simp only [BitVec.extractLsb'_toNat, hn, Nat.shiftRight_eq_div_pow]
    omega

theorem chan4Source_chan4 (c : Byte) : Encoder.chan4Source (Encoder.chan4 c) = c := by
  revert c; decide +kernel

end Sys2Proof
end

