-- ==== Sys2Proof/Laws/Memory.lean ====
section
/-! SUPPORT. The two buffers: what a read sees after a write, and that every operation keeps the canonical form. -/

namespace Sys2Proof.Machine.Memory

@[simp] theorem read_nil (x : Nat) : read [] x = 0x00 := rfl

theorem risesFrom_mono {m : Memory} {lo lo' : Nat} (h : risesFrom m lo = true) (hl : lo' ≤ lo) :
    risesFrom m lo' = true := by
  cases m with
  | nil => rfl
  | cons c m => obtain ⟨a, v⟩ := c; simp [risesFrom] at h ⊢; exact ⟨⟨by omega, h.1.2⟩, h.2⟩

/-- Below the first listed address every byte reads zero. -/
theorem read_lt {m : Memory} {lo x : Nat} (h : risesFrom m lo = true) (hx : x < lo) : read m x = 0x00 := by
  induction m generalizing lo with
  | nil => rfl
  | cons c m ih =>
    obtain ⟨a, v⟩ := c
    simp [risesFrom] at h
    have : x ≠ a := by omega
    simp only [read, if_neg this]
    exact ih h.2 (by omega)

theorem write_risesFrom {m : Memory} {lo x : Nat} {v : Byte} (h : risesFrom m lo = true) (hx : lo ≤ x) :
    risesFrom (write m x v) lo = true := by
  induction m generalizing lo with
  | nil => unfold write; split <;> simp_all [risesFrom]
  | cons c m ih =>
    obtain ⟨a, w⟩ := c
    simp [risesFrom] at h
    obtain ⟨⟨h1, h2⟩, h3⟩ := h
    unfold write
    split
    · split
      · simp [risesFrom, *]
      · rename_i hv
        simp [risesFrom, hx, h2, h3]; exact ⟨by simpa using hv, by omega⟩
    · split
      · split
        · exact risesFrom_mono h3 (by omega)
        · rename_i hv
          subst_vars; simp [risesFrom, h1, h3]; simpa using hv
      · simp [risesFrom, *]; exact ih h3 (by omega)

/-- A read after a write: the written byte at its address, every other address as before. -/
theorem read_write_from {m : Memory} {lo x : Nat} {v : Byte} (h : risesFrom m lo = true) (y : Nat) :
    read (write m x v) y = if y = x then v else read m y := by
  induction m generalizing lo with
  | nil => unfold write; split <;> simp_all [read]
  | cons c m ih =>
    obtain ⟨a, w⟩ := c
    simp [risesFrom] at h
    obtain ⟨⟨h1, h2⟩, h3⟩ := h
    unfold write
    split
    · split
      · split
        · subst_vars
          simp only [read]
          rw [if_neg (by omega), read_lt h3 (by omega)]
        · rfl
      · rfl
    · split
      · split
        · subst_vars
          split
          · subst_vars; exact read_lt h3 (by omega)
          · simp only [read]; rw [if_neg (by assumption)]
        · subst_vars
          simp only [read]
          split <;> rfl
      · simp only [read, ih h3]
        split
        · rw [if_neg (by omega)]
        · rfl

theorem read_write {m : Memory} {x : Nat} {v : Byte} (h : m.wf = true) (y : Nat) :
    read (write m x v) y = if y = x then v else read m y := read_write_from h y

theorem write_wf {m : Memory} {x : Nat} {v : Byte} (h : m.wf = true) : (write m x v).wf = true :=
  write_risesFrom h (Nat.zero_le x)

theorem writeList_wf {m : Memory} {x : Nat} {vs : List Byte} (h : m.wf = true) : (writeList m x vs).wf = true := by
  induction vs generalizing m x with
  | nil => exact h
  | cons v vs ih => exact ih (write_wf h)

/-- A read after a write of consecutive bytes. -/
theorem read_writeList {m : Memory} {x : Nat} {vs : List Byte} (h : m.wf = true) (y : Nat) :
    read (writeList m x vs) y = if x ≤ y ∧ y < x + vs.length then vs.getD (y - x) 0 else read m y := by
  induction vs generalizing m x with
  | nil => simp [writeList]
  | cons v vs ih =>
    simp only [writeList]
    rw [ih (write_wf h), read_write h]
    by_cases h1 : y = x
    · subst h1; simp
    · by_cases h2 : x + 1 ≤ y ∧ y < x + 1 + vs.length
      · obtain ⟨k, rfl⟩ : ∃ k, y = x + 1 + k := ⟨y - (x + 1), by omega⟩
        rw [if_pos h2, if_pos (by simp; omega)]
        have e1 : x + 1 + k - (x + 1) = k := by omega
        have e2 : x + 1 + k - x = k + 1 := by omega
        rw [e1, e2]; simp
      · rw [if_neg h2, if_neg h1, if_neg (by simp; omega)]

theorem write_below {m : Memory} {x top : Nat} {v : Byte} (h : m.below top = true) (hx : x < top) :
    (write m x v).below top = true := by
  induction m with
  | nil => unfold write; split <;> simp_all [below]
  | cons c m ih =>
    obtain ⟨a, w⟩ := c
    have hc : a < top ∧ below m top = true := by simpa [below] using h
    have hi : below (write m x v) top = true := ih hc.2
    unfold write
    split
    · split
      · exact h
      · simpa [below] using ⟨hx, hc.1, by simpa [below] using hc.2⟩
    · split
      · split
        · exact hc.2
        · simpa [below] using ⟨hx, by simpa [below] using hc.2⟩
      · simpa [below] using ⟨hc.1, by simpa [below] using hi⟩

theorem writeList_below {m : Memory} {x top : Nat} {vs : List Byte} (h : m.below top = true)
    (hx : x + vs.length ≤ top) : (writeList m x vs).below top = true := by
  induction vs generalizing m x with
  | nil => exact h
  | cons v vs ih =>
    simp only [List.length_cons] at hx
    exact ih (write_below h (by omega)) (by omega)

/-- Canonical memories that read alike are the same list: equal memories are equal data. -/
theorem ext_from {m m' : Memory} {lo : Nat} (h : risesFrom m lo = true) (h' : risesFrom m' lo = true)
    (hr : ∀ x, read m x = read m' x) : m = m' := by
  induction m generalizing m' lo with
  | nil =>
    cases m' with
    | nil => rfl
    | cons c m' =>
      obtain ⟨a, v⟩ := c
      simp [risesFrom] at h'
      have := hr a
      simp [read] at this
      exact absurd this.symm h'.1.2
  | cons c m ih =>
    obtain ⟨a, v⟩ := c
    simp [risesFrom] at h
    cases m' with
    | nil =>
      have := hr a
      simp [read] at this
      exact absurd this h.1.2
    | cons c' m' =>
      obtain ⟨a', v'⟩ := c'
      simp [risesFrom] at h'
      have ha : a = a' := by
        rcases Nat.lt_trichotomy a a' with hlt | heq | hgt
        · have := hr a
          simp only [read, if_true, if_neg (Nat.ne_of_lt hlt)] at this
          rw [read_lt h'.2 (by omega)] at this
          exact absurd this h.1.2
        · exact heq
        · have := hr a'
          simp only [read, if_true, if_neg (Nat.ne_of_lt hgt)] at this
          rw [read_lt h.2 (by omega)] at this
          exact absurd this.symm h'.1.2
      subst ha
      have hv := hr a
      simp [read] at hv
      subst hv
      congr 1
      refine ih h.2 h'.2 fun x => ?_
      have := hr x
      by_cases hx : x = a
      · subst hx; rw [read_lt h.2 (by omega), read_lt h'.2 (by omega)]
      · simpa only [read, if_neg hx] using this

theorem ext {m m' : Memory} (h : m.wf = true) (h' : m'.wf = true) (hr : ∀ x, read m x = read m' x) : m = m' :=
  ext_from h h' hr

@[simp] theorem readList_length (m : Memory) (a n : Nat) : (readList m a n).length = n := by
  induction n generalizing a with
  | zero => rfl
  | succ n ih => simp [readList, ih]

theorem readList_getElem? (m : Memory) (a n k : Nat) :
    (readList m a n)[k]? = if k < n then some (read m (a + k)) else none := by
  induction n generalizing a k with
  | zero => simp [readList]
  | succ n ih =>
    cases k with
    | zero => simp [readList]
    | succ k => simp [readList, ih, Nat.add_assoc, Nat.add_comm 1 k]

/-- Consecutive bytes depend on what their addresses read alone. -/
theorem readList_congr {m m' : Memory} {a n : Nat} (h : ∀ x, a ≤ x → x < a + n → read m x = read m' x) :
    readList m a n = readList m' a n := by
  induction n generalizing a with
  | zero => rfl
  | succ n ih =>
    simp only [readList]
    rw [h a (by omega) (by omega), ih fun x h1 h2 => h x (by omega) (by omega)]

theorem readList_append (m : Memory) (a n k : Nat) :
    readList m a (n + k) = readList m a n ++ readList m (a + n) k := by
  induction n generalizing a with
  | zero => simp [readList]
  | succ n ih => rw [Nat.add_right_comm]; simp [readList, ih, Nat.add_assoc, Nat.add_comm 1 n]

/-- What has been written in a row is read back in a row. -/
theorem readList_writeList {m : Memory} {a : Nat} {vs : List Byte} (h : m.wf = true) :
    readList (writeList m a vs) a vs.length = vs := by
  apply List.ext_getElem?
  intro k
  rw [readList_getElem?]
  by_cases hk : k < vs.length
  · rw [if_pos hk, read_writeList h, if_pos (by omega)]
    simp [List.getD_eq_getElem?_getD, hk]
  · rw [if_neg hk, List.getElem?_eq_none (by omega)]

end Sys2Proof.Machine.Memory
end

