-- ==== Sys2Proof/Laws/State.lean ====
section
/-! SUPPORT. One lemma per field for each named update of the state, so that no proof unfolds a record update. -/

namespace Sys2Proof.Machine

namespace State

/-! ### `answer` -/

@[simp] theorem answer_cfg (s : State) (r : Response) : (s.answer r).cfg = s.cfg := rfl
@[simp] theorem answer_constructed (s : State) (r : Response) : (s.answer r).constructed = s.constructed := rfl
@[simp] theorem answer_chan (s : State) (r : Response) : (s.answer r).chan = s.chan := rfl
@[simp] theorem answer_enc (s : State) (r : Response) : (s.answer r).enc = s.enc := rfl
@[simp] theorem answer_cursor (s : State) (r : Response) : (s.answer r).cursor = s.cursor := rfl
@[simp] theorem answer_seq (s : State) (r : Response) : (s.answer r).seq = s.seq := rfl
@[simp] theorem answer_run (s : State) (r : Response) : (s.answer r).run = s.run := rfl
@[simp] theorem answer_last (s : State) (r : Response) : (s.answer r).last = .returned r := rfl
@[simp] theorem answer_trace (s : State) (r : Response) : (s.answer r).trace = s.trace := rfl
@[simp] theorem answer_xcvr (s : State) (r : Response) : (s.answer r).xcvr = s.xcvr := rfl
@[simp] theorem answer_cmds (s : State) (r : Response) : (s.answer r).cmds = s.cmds := rfl
@[simp] theorem answer_colours (s : State) (r : Response) : (s.answer r).colours = s.colours := rfl
@[simp] theorem answer_units (s : State) (r : Response) : (s.answer r).units = s.units := rfl

/-! ### `refuse` -/

@[simp] theorem refuse_cfg (s : State) (r : RefuseReason) : (s.refuse r).cfg = s.cfg := rfl
@[simp] theorem refuse_constructed (s : State) (r : RefuseReason) : (s.refuse r).constructed = s.constructed := rfl
@[simp] theorem refuse_chan (s : State) (r : RefuseReason) : (s.refuse r).chan = s.chan := rfl
@[simp] theorem refuse_enc (s : State) (r : RefuseReason) : (s.refuse r).enc = s.enc := rfl
@[simp] theorem refuse_cursor (s : State) (r : RefuseReason) : (s.refuse r).cursor = s.cursor := rfl
@[simp] theorem refuse_seq (s : State) (r : RefuseReason) : (s.refuse r).seq = s.seq := rfl
@[simp] theorem refuse_run (s : State) (r : RefuseReason) : (s.refuse r).run = s.run := rfl
@[simp] theorem refuse_last (s : State) (r : RefuseReason) : (s.refuse r).last = .refused r := rfl
@[simp] theorem refuse_trace (s : State) (r : RefuseReason) : (s.refuse r).trace = s.trace := rfl
@[simp] theorem refuse_xcvr (s : State) (r : RefuseReason) : (s.refuse r).xcvr = s.xcvr := rfl
@[simp] theorem refuse_cmds (s : State) (r : RefuseReason) : (s.refuse r).cmds = s.cmds := rfl
@[simp] theorem refuse_colours (s : State) (r : RefuseReason) : (s.refuse r).colours = s.colours := rfl
@[simp] theorem refuse_units (s : State) (r : RefuseReason) : (s.refuse r).units = s.units := rfl

/-! ### `zeroChan` -/

@[simp] theorem zeroChan_cfg (s : State) : (s.zeroChan).cfg = s.cfg := rfl
@[simp] theorem zeroChan_constructed (s : State) : (s.zeroChan).constructed = true := rfl
@[simp] theorem zeroChan_chan (s : State) : (s.zeroChan).chan = [] := rfl
@[simp] theorem zeroChan_enc (s : State) : (s.zeroChan).enc = s.enc := rfl
@[simp] theorem zeroChan_cursor (s : State) : (s.zeroChan).cursor = s.cursor := rfl
@[simp] theorem zeroChan_seq (s : State) : (s.zeroChan).seq = .idle := rfl
@[simp] theorem zeroChan_run (s : State) : (s.zeroChan).run = s.run := rfl
@[simp] theorem zeroChan_last (s : State) : (s.zeroChan).last = s.last := rfl
@[simp] theorem zeroChan_trace (s : State) : (s.zeroChan).trace = s.trace := rfl
@[simp] theorem zeroChan_xcvr (s : State) : (s.zeroChan).xcvr = s.xcvr := rfl
@[simp] theorem zeroChan_cmds (s : State) : (s.zeroChan).cmds = s.cmds := rfl
@[simp] theorem zeroChan_colours (s : State) : (s.zeroChan).colours = s.colours := rfl
@[simp] theorem zeroChan_units (s : State) : (s.zeroChan).units = s.units := rfl

/-! ### `zeroEnc` -/

@[simp] theorem zeroEnc_cfg (s : State) : (s.zeroEnc).cfg = s.cfg := rfl
@[simp] theorem zeroEnc_constructed (s : State) : (s.zeroEnc).constructed = s.constructed := rfl
@[simp] theorem zeroEnc_chan (s : State) : (s.zeroEnc).chan = s.chan := rfl
@[simp] theorem zeroEnc_enc (s : State) : (s.zeroEnc).enc = [] := rfl
@[simp] theorem zeroEnc_cursor (s : State) : (s.zeroEnc).cursor = 0 := rfl
@[simp] theorem zeroEnc_seq (s : State) : (s.zeroEnc).seq = s.seq := rfl
@[simp] theorem zeroEnc_run (s : State) : (s.zeroEnc).run = s.run := rfl
@[simp] theorem zeroEnc_last (s : State) : (s.zeroEnc).last = s.last := rfl
@[simp] theorem zeroEnc_trace (s : State) : (s.zeroEnc).trace = s.trace := rfl
@[simp] theorem zeroEnc_xcvr (s : State) : (s.zeroEnc).xcvr = s.xcvr := rfl
@[simp] theorem zeroEnc_cmds (s : State) : (s.zeroEnc).cmds = s.cmds := rfl
@[simp] theorem zeroEnc_colours (s : State) : (s.zeroEnc).colours = s.colours := rfl
@[simp] theorem zeroEnc_units (s : State) : (s.zeroEnc).units = s.units := rfl

/-! ### `startRun` -/

@[simp] theorem startRun_cfg (s : State) (src : Source) : (s.startRun src).cfg = s.cfg := rfl
@[simp] theorem startRun_constructed (s : State) (src : Source) : (s.startRun src).constructed = s.constructed := rfl
@[simp] theorem startRun_chan (s : State) (src : Source) : (s.startRun src).chan = s.chan := rfl
@[simp] theorem startRun_enc (s : State) (src : Source) : (s.startRun src).enc = s.enc := rfl
@[simp] theorem startRun_cursor (s : State) (src : Source) : (s.startRun src).cursor = s.cursor := rfl
@[simp] theorem startRun_seq (s : State) (src : Source) : (s.startRun src).seq = .idle := rfl
@[simp] theorem startRun_run (s : State) (src : Source) : (s.startRun src).run = some src := rfl
@[simp] theorem startRun_last (s : State) (src : Source) : (s.startRun src).last = .running := rfl
@[simp] theorem startRun_trace (s : State) (src : Source) : (s.startRun src).trace = [] := rfl
@[simp] theorem startRun_xcvr (s : State) (src : Source) : (s.startRun src).xcvr = s.xcvr := rfl
@[simp] theorem startRun_cmds (s : State) (src : Source) : (s.startRun src).cmds = s.cmds := rfl
@[simp] theorem startRun_colours (s : State) (src : Source) : (s.startRun src).colours = s.colours := rfl
@[simp] theorem startRun_units (s : State) (src : Source) : (s.startRun src).units = s.units := rfl

/-! ### `takeCommand` -/

@[simp] theorem takeCommand_cfg (s : State) (w : CmdWord) : (s.takeCommand w).cfg = s.cfg := rfl
@[simp] theorem takeCommand_constructed (s : State) (w : CmdWord) : (s.takeCommand w).constructed = s.constructed := rfl
@[simp] theorem takeCommand_chan (s : State) (w : CmdWord) : (s.takeCommand w).chan = s.chan := rfl
@[simp] theorem takeCommand_enc (s : State) (w : CmdWord) : (s.takeCommand w).enc = s.enc := rfl
@[simp] theorem takeCommand_cursor (s : State) (w : CmdWord) : (s.takeCommand w).cursor = s.cursor := rfl
@[simp] theorem takeCommand_seq (s : State) (w : CmdWord) : (s.takeCommand w).seq = s.seq := rfl
@[simp] theorem takeCommand_run (s : State) (w : CmdWord) : (s.takeCommand w).run = s.run := rfl
@[simp] theorem takeCommand_last (s : State) (w : CmdWord) : (s.takeCommand w).last = s.last := rfl
@[simp] theorem takeCommand_trace (s : State) (w : CmdWord) : (s.takeCommand w).trace = s.trace := rfl
@[simp] theorem takeCommand_xcvr (s : State) (w : CmdWord) : (s.takeCommand w).xcvr = s.xcvr := rfl
@[simp] theorem takeCommand_cmds (s : State) (w : CmdWord) : (s.takeCommand w).cmds = s.cmds.tail := rfl
@[simp] theorem takeCommand_colours (s : State) (w : CmdWord) : (s.takeCommand w).colours = s.colours.drop (colourCount w) := rfl
@[simp] theorem takeCommand_units (s : State) (w : CmdWord) : (s.takeCommand w).units = s.units := rfl

end State

namespace Block

/-! ### `logged` -/

@[simp] theorem logged_cfg (b : Block) (op : XcvrOp) (r : Reply) : (b.logged op r).cfg = b.cfg := rfl
@[simp] theorem logged_constructed (b : Block) (op : XcvrOp) (r : Reply) : (b.logged op r).constructed = b.constructed := rfl
@[simp] theorem logged_chan (b : Block) (op : XcvrOp) (r : Reply) : (b.logged op r).chan = b.chan := rfl
@[simp] theorem logged_enc (b : Block) (op : XcvrOp) (r : Reply) : (b.logged op r).enc = b.enc := rfl
@[simp] theorem logged_cursor (b : Block) (op : XcvrOp) (r : Reply) : (b.logged op r).cursor = b.cursor := rfl
@[simp] theorem logged_seq (b : Block) (op : XcvrOp) (r : Reply) : (b.logged op r).seq = b.seq := rfl
@[simp] theorem logged_run (b : Block) (op : XcvrOp) (r : Reply) : (b.logged op r).run = b.run := rfl
@[simp] theorem logged_last (b : Block) (op : XcvrOp) (r : Reply) : (b.logged op r).last = b.last := rfl
@[simp] theorem logged_trace (b : Block) (op : XcvrOp) (r : Reply) : (b.logged op r).trace = b.trace ++ [{ op := op, reply := r }] := rfl

/-! ### `endRun` -/

@[simp] theorem endRun_cfg (b : Block) (r : Response) : (b.endRun r).cfg = b.cfg := rfl
@[simp] theorem endRun_constructed (b : Block) (r : Response) : (b.endRun r).constructed = b.constructed := rfl
@[simp] theorem endRun_chan (b : Block) (r : Response) : (b.endRun r).chan = b.chan := rfl
@[simp] theorem endRun_enc (b : Block) (r : Response) : (b.endRun r).enc = b.enc := rfl
@[simp] theorem endRun_cursor (b : Block) (r : Response) : (b.endRun r).cursor = b.cursor := rfl
@[simp] theorem endRun_seq (b : Block) (r : Response) : (b.endRun r).seq = .idle := rfl
@[simp] theorem endRun_run (b : Block) (r : Response) : (b.endRun r).run = none := rfl
@[simp] theorem endRun_last (b : Block) (r : Response) : (b.endRun r).last = .returned r := rfl
@[simp] theorem endRun_trace (b : Block) (r : Response) : (b.endRun r).trace = b.trace := rfl

/-! ### `raiseChannelError` -/

@[simp] theorem raiseChannelError_cfg (b : Block) (e : ChannelError) : (b.raiseChannelError e).cfg = b.cfg := rfl
@[simp] theorem raiseChannelError_constructed (b : Block) (e : ChannelError) : (b.raiseChannelError e).constructed = b.constructed := rfl
@[simp] theorem raiseChannelError_chan (b : Block) (e : ChannelError) : (b.raiseChannelError e).chan = b.chan := rfl
@[simp] theorem raiseChannelError_enc (b : Block) (e : ChannelError) : (b.raiseChannelError e).enc = b.enc := rfl
@[simp] theorem raiseChannelError_cursor (b : Block) (e : ChannelError) : (b.raiseChannelError e).cursor = b.cursor := rfl
@[simp] theorem raiseChannelError_seq (b : Block) (e : ChannelError) : (b.raiseChannelError e).seq = .idle := rfl
@[simp] theorem raiseChannelError_run (b : Block) (e : ChannelError) : (b.raiseChannelError e).run = none := rfl
@[simp] theorem raiseChannelError_last (b : Block) (e : ChannelError) : (b.raiseChannelError e).last = .returned (.err e) := rfl
@[simp] theorem raiseChannelError_trace (b : Block) (e : ChannelError) : (b.raiseChannelError e).trace = b.trace := rfl

end Block

@[simp] theorem Xcvr.answered_script (x : Xcvr) : x.answered.script = x.script.tail := rfl
@[simp] theorem Xcvr.answered_rest (x : Xcvr) : x.answered.rest = x.rest := rfl
@[simp] theorem Xcvr.answered_link (x : Xcvr) : x.answered.link = x.link := rfl

end Sys2Proof.Machine
end

