-- ==== Sys2Proof/Laws/Ops.lean ====
section
/-! SUPPORT. The shared operations: everything each can do, said once. -/

namespace Sys2Proof.Machine

/-! ### Guards -/

/-- `busy` reads three fields and no other. -/
theorem Block.busy_congr {s t : Block} (hr : t.run = s.run) (hc : t.constructed = s.constructed) (hs : t.seq = s.seq) :
    t.busy = s.busy := by simp [Block.busy, hr, hc, hs]

theorem Block.run_none_of_idle {s : Block} (h : s.busy = false) : s.run = none := by
  simp [Block.busy] at h; exact h.1

theorem Block.seq_idle_of_idle {s : Block} (h : s.busy = false) (hc : s.constructed = true) : s.seq = .idle := by
  simp [Block.busy, hc] at h; exact h.2

theorem Block.busy_of_run {s : Block} {src : Source} (h : s.run = some src) : s.busy = true := by simp [Block.busy, h]

theorem State.accepts.seq_idle {s : State} {v : Variant} (h : s.accepts v) : s.seq = .idle := Block.seq_idle_of_idle h.2.2 h.2.1

theorem State.accepts.run_none {s : State} {v : Variant} (h : s.accepts v) : s.run = none := Block.run_none_of_idle h.2.2

/-- An accepted command runs its body. -/
theorem State.guarded_of_accepts {s : State} {v : Variant} {b : Bool} {r : Result} (h : s.accepts v) :
    s.guarded v b r = r := by
  obtain ⟨hv, hc, hb⟩ := h
  simp [State.guarded, hv, hc, hb]

/-- `CONSTRUCT` runs before construction too. -/
theorem State.guarded_construct {s : State} {v : Variant} {r : Result} (hv : s.cfg.variant = v) (hb : s.busy = false) :
    s.guarded v false r = r := by
  simp [State.guarded, hv, hb]

/-- A guarded command that answers a next state was refused, or its body ran. -/
theorem State.guarded_next {s t : State} {v : Variant} {b : Bool} {r : Result} (h : s.guarded v b r = .next t) :
    (∃ why, t = s.refuse why) ∨
      (s.cfg.variant = v ∧ (b = true → s.constructed = true) ∧ s.busy = false ∧ r = .next t) := by
  unfold State.guarded at h
  split at h
  · exact .inl ⟨_, by simpa using h.symm⟩
  · rename_i hv
    split at h
    · exact .inl ⟨_, by simpa using h.symm⟩
    · rename_i hc
      split at h
      · cases h
      · rename_i hb
        refine .inr ⟨by simpa using hv, ?_, by simpa using hb, h⟩
        intro hb'; subst hb'; simpa using hc

theorem State.guarded_ne_refused {s : State} {v : Variant} {b : Bool} {r : Result} {why : Refusal}
    (hr : r ≠ .refused why) : s.guarded v b r ≠ .refused why := by
  unfold State.guarded
  split
  · simp
  · split
    · simp
    · split
      · simp
      · exact hr

theorem orFault_next {α : Type} {x : Except Fault α} {k : α → Result} {t : State} (h : orFault x k = .next t) :
    ∃ v, x = .ok v ∧ k v = .next t := by
  cases x with
  | ok v => exact ⟨v, rfl, h⟩
  | error f => cases h

theorem orFault_ne_refused {α : Type} {x : Except Fault α} {k : α → Result} {why : Refusal}
    (h : ∀ v, k v ≠ .refused why) : orFault x k ≠ .refused why := by
  cases x with
  | ok v => exact h v
  | error f => simp [orFault]

/-! ### The primitives -/

theorem State.memRead_one {s : State} {a : Nat} (h : a < s.cfg.slots) : s.memRead a 1 = .ok [s.chan.read a] := by
  simp only [State.memRead, if_pos (show a + 1 ≤ s.cfg.slots from h)]; rfl

theorem State.memRead_out {s : State} {a n : Nat} (h : s.cfg.slots < a + n) :
    s.memRead a n = .error .slotIndexOutOfRange := by
  simp [State.memRead, h]

theorem State.memWrite_ok {s : State} {a : Nat} {vs : List Byte} (h : a + vs.length ≤ s.cfg.slots) :
    s.memWrite a vs = .ok { s with chan := s.chan.writeList a vs } := by
  simp [State.memWrite, h]

theorem State.memWrite_out {s : State} {a : Nat} {vs : List Byte} (h : s.cfg.slots < a + vs.length) :
    s.memWrite a vs = .error .slotIndexOutOfRange := by
  simp [State.memWrite, h]

/-- A write that answers a state stored its bytes, inside the space, and changed nothing else. -/
theorem State.memWrite_eq_ok {s t : State} {a : Nat} {vs : List Byte} (h : s.memWrite a vs = .ok t) :
    a + vs.length ≤ s.cfg.slots ∧ t = { s with chan := s.chan.writeList a vs } := by
  unfold State.memWrite at h
  split at h
  · exact ⟨by assumption, by simpa using h.symm⟩
  · cases h

theorem State.encWrite_ok {s : State} {a : Nat} {vs : List Byte} (h : a + vs.length ≤ s.cfg.encCap) :
    s.encWrite a vs = .ok { s with enc := s.enc.writeList a vs } := by
  simp [State.encWrite, h]

theorem State.encWrite_out {s : State} {a : Nat} {vs : List Byte} (h : s.cfg.encCap < a + vs.length) :
    s.encWrite a vs = .error .encOverflow := by
  simp [State.encWrite, h]

/-! ### Operands -/

@[simp] theorem slotBytes_length (v : Variant) (c : Colour) : (slotBytes v c).length = 3 := by cases v <;> rfl

/-- A colour read back from its own slot bytes. -/
@[simp] theorem colourOfSlots_slotBytes_P (c : Colour) : colourOfSlots .P c.g c.r c.b = c := rfl
@[simp] theorem colourOfSlots_slotBytes_S (c : Colour) : colourOfSlots .S c.r c.g c.b = c := rfl

theorem State.checkPixel_ok {s : State} {i : Nat} (h : i < s.cfg.n) : s.checkPixel i = .ok () := by
  simp [State.checkPixel, h]

theorem State.checkPixel_out {s : State} {i : Nat} (h : s.cfg.n ≤ i) : s.checkPixel i = .error .pixelIndexOutOfRange := by
  simp [State.checkPixel, Nat.not_lt.mpr h]

/-- A pixel in range has its three slots in the slot space. -/
theorem Config.pixel_slots {cfg : Config} {i : Nat} (h : i < cfg.n) : pixelBase i + 3 ≤ cfg.slots := by
  simp [pixelBase, Config.slots]; omega

theorem State.storeColour_ok {s : State} {v : Variant} {i : Nat} {c : Colour} (h : i < s.cfg.n) :
    s.storeColour v i c = .ok { s with chan := s.chan.writeList (pixelBase i) (slotBytes v c) } :=
  State.memWrite_ok (by simpa using Config.pixel_slots h)

/-- What the two forms of access read in a state depends on `cfg` and `chan` alone. -/
theorem State.colourAt_congr {s t : State} {v : Variant} {i : Nat}
    (h : ∀ k, k < 3 → t.chan.read (3 * i + k) = s.chan.read (3 * i + k)) : t.colourAt v i = s.colourAt v i := by
  have h0 := h 0 (by omega)
  have h1 := h 1 (by omega)
  have h2 := h 2 (by omega)
  simp only [Nat.add_zero] at h0
  simp [State.colourAt, pixelBase, h0, h1, h2]

/-! ### The payload -/

theorem Encoder.encode_length (c : Byte) : (Encoder.encode c).length = 4 := rfl

theorem flatMap_encode_length (cs : List Byte) : (cs.flatMap Encoder.encode).length = 4 * cs.length := by
  induction cs with
  | nil => rfl
  | cons c cs ih => simp [Encoder.encode_length, ih]; omega

theorem flatMap_encode_getElem? (cs : List Byte) (p : Nat) :
    (cs.flatMap Encoder.encode)[p]? = cs[p / 4]?.map fun c => Encoder.waveOf c (p % 4) := by
  induction cs generalizing p with
  | nil => simp
  | cons c cs ih =>
    simp only [List.flatMap_cons]
    by_cases hp : p < 4
    · rw [List.getElem?_append_left (by simpa [Encoder.encode_length] using hp)]
      have h0 : p / 4 = 0 := by omega
      rw [h0]
      match p, hp with
      | 0, _ => rfl
      | 1, _ => rfl
      | 2, _ => rfl
      | 3, _ => rfl
    · rw [List.getElem?_append_right (by simpa [Encoder.encode_length] using Nat.not_lt.mp hp), Encoder.encode_length, ih]
      have h1 : p / 4 = (p - 4) / 4 + 1 := by omega
      have h2 : p % 4 = (p - 4) % 4 := by omega
      rw [h1, h2]; simp

/-- The list form and the byte-by-byte form of a payload are the same. -/
theorem Block.payload_getElem? (s : Block) (src : Source) (p : Nat) :
    (s.payload src)[p]? = if p < s.payloadLen src then some (s.payloadByte src p) else none := by
  cases src with
  | chan =>
    have e : (s.payload .chan)[p]? =
        ((s.chan.readList 0 s.cfg.slots)[p / 4]?).map fun c => Encoder.waveOf c (p % 4) := flatMap_encode_getElem? _ _
    rw [e, Memory.readList_getElem?]
    by_cases h : p / 4 < s.cfg.slots
    · rw [if_pos h, if_pos (show p < s.payloadLen .chan from (by omega : p < 4 * s.cfg.slots)), Nat.zero_add]; rfl
    · rw [if_neg h, if_neg (show ¬p < s.payloadLen .chan from (by omega : ¬p < 4 * s.cfg.slots))]; rfl
  | enc =>
    have e : (s.payload .enc)[p]? = _ := Memory.readList_getElem? s.enc 0 s.cursor p
    rw [e, Nat.zero_add]; rfl
  | given bs =>
    by_cases h : p < bs.length
    · rw [if_pos (show p < s.payloadLen (.given bs) from h)]
      simp [Block.payload, Block.payloadByte, List.getD_eq_getElem?_getD, h]
    · rw [if_neg (show ¬p < s.payloadLen (.given bs) from h)]
      exact List.getElem?_eq_none (Nat.not_lt.mp h)

theorem Block.payload_length (s : Block) (src : Source) : (s.payload src).length = s.payloadLen src := by
  cases src with
  | chan =>
    rw [Block.payload, Block.payloadP, flatMap_encode_length, Memory.readList_length]; rfl
  | enc => exact Memory.readList_length _ _ _
  | given bs => rfl

/-- A payload depends on `cfg`, `chan`, `enc` and `cursor` alone. -/
theorem Block.payload_congr {s t : Block} (src : Source) (hg : t.cfg = s.cfg) (hc : t.chan = s.chan) (he : t.enc = s.enc)
    (hk : t.cursor = s.cursor) : t.payload src = s.payload src := by
  cases src <;> simp [Block.payload, Block.payloadP, hg, hc, he, hk]

theorem Block.payloadLen_congr {s t : Block} (src : Source) (hg : t.cfg = s.cfg) (hk : t.cursor = s.cursor) :
    t.payloadLen src = s.payloadLen src := by
  cases src <;> simp [Block.payloadLen, hg, hk]

/-! ### Waveform bytes -/

theorem Encoder.isWave_lut (h l : Bool) : Encoder.isWave (Encoder.lut h l) = true := by
  cases h <;> cases l <;> rfl

theorem Encoder.isWave_waveOf (c : Byte) (k : Nat) : Encoder.isWave (Encoder.waveOf c k) = true := Encoder.isWave_lut _ _

theorem Encoder.isWave_encode {c b : Byte} (h : b ∈ Encoder.encode c) : Encoder.isWave b = true := by
  simp only [Encoder.encode, List.mem_cons, List.not_mem_nil, or_false] at h
  rcases h with h | h | h | h <;> rw [h] <;> exact Encoder.isWave_waveOf _ _

theorem Encoder.isWave_iff (b : Byte) : Encoder.isWave b = true ↔ b = 0x88 ∨ b = 0x8E ∨ b = 0xE8 ∨ b = 0xEE := by
  simp [Encoder.isWave, or_assoc]

end Sys2Proof.Machine
end

