-- ==== Sys2Proof/Laws/Sequencer.lean ====
section
/-! SUPPORT. The sequencer: the operation list by index, the positions an answer leads to, and one transceiver operation in
one inversion lemma. -/

namespace Sys2Proof.Machine

/-! ### The operation list -/

@[simp] theorem cyclesOf_length (bs : List Byte) : (cyclesOf bs).length = 2 * bs.length := by
  induction bs with
  | nil => rfl
  | cons b bs ih => simp [cyclesOf, ih]; omega

/-- Cycle `k` is `SEND` of byte `k`, then `RECV`. -/
theorem cyclesOf_getElem? (bs : List Byte) (j : Nat) :
    (cyclesOf bs)[j]? = if j % 2 = 0 then bs[j / 2]?.map XcvrOp.send else bs[j / 2]?.map fun _ => XcvrOp.recv := by
  induction bs generalizing j with
  | nil => simp [cyclesOf]
  | cons b bs ih =>
    match j with
    | 0 => rfl
    | 1 => rfl
    | j + 2 =>
      have h1 : (j + 2) / 2 = j / 2 + 1 := by omega
      have h2 : (j + 2) % 2 = j % 2 := by omega
      simp [cyclesOf, ih, h1, h2]

theorem opList_length (cfg : Config) (p : List Byte) : (opList cfg p).length = cfg.opCount p.length := by
  simp [opList, Config.opCount]; omega

/-- The operation at an index, phase by phase (43_sequencer.md R171). -/
theorem opList_getElem? (cfg : Config) (p : List Byte) (j : Nat) (hj : j < cfg.opCount p.length) :
    (opList cfg p)[j]? = some (
      if j = 0 then .send 0x00
      else if j - 1 < 2 * cfg.leadCycles then (if (j - 1) % 2 = 0 then .send 0x00 else .recv)
      else if j - 1 - 2 * cfg.leadCycles < 2 * p.length then
        (if (j - 1 - 2 * cfg.leadCycles) % 2 = 0 then .send (p.getD ((j - 1 - 2 * cfg.leadCycles) / 2) 0) else .recv)
      else if j - 1 - 2 * cfg.leadCycles - 2 * p.length < 2 * cfg.trailCycles then
        (if (j - 1 - 2 * cfg.leadCycles - 2 * p.length) % 2 = 0 then .send 0x00 else .recv)
      else .recv) := by
  unfold Config.opCount at hj
  cases j with
  | zero => rfl
  | succ j =>
    simp only [opList, List.getElem?_cons_succ, Nat.add_sub_cancel, Nat.succ_ne_zero, if_false]
    by_cases h1 : j < 2 * cfg.leadCycles
    · rw [List.getElem?_append_left (by simpa using h1), if_pos h1, cyclesOf_getElem?,
        List.getElem?_replicate_of_lt (by omega)]
      split <;> rfl
    · rw [List.getElem?_append_right (by simpa using h1), if_neg h1]
      simp only [cyclesOf_length, List.length_replicate]
      by_cases h2 : j - 2 * cfg.leadCycles < 2 * p.length
      · rw [List.getElem?_append_left (by simpa using h2), if_pos h2, cyclesOf_getElem?]
        have h3 : (j - 2 * cfg.leadCycles) / 2 < p.length := by omega
        rw [List.getElem?_eq_getElem h3]
        split <;> simp [List.getD_eq_getElem?_getD, h3]
      · rw [List.getElem?_append_right (by simpa using h2), if_neg h2]
        simp only [cyclesOf_length]
        by_cases h3 : j - 2 * cfg.leadCycles - 2 * p.length < 2 * cfg.trailCycles
        · rw [List.getElem?_append_left (by simpa using h3), if_pos h3, cyclesOf_getElem?,
            List.getElem?_replicate_of_lt (by omega)]
          split <;> rfl
        · rw [List.getElem?_append_right (by simpa using h3), if_neg h3]
          simp only [cyclesOf_length, List.length_replicate]
          have : j - 2 * cfg.leadCycles - 2 * p.length - 2 * cfg.trailCycles = 0 := by omega
          rw [this]; rfl

/-! ### Positions -/

/-- The first position after the payload phase. -/
theorem Seq.settle_afterPayload (cfg : Config) (len k : Nat) (h : ¬k < len) :
    Seq.settle cfg len (.pos .payloadStreaming k .tx) =
      if 0 < cfg.trailPadLen then .pos .trailingPad 0 .tx else .pos .draining 0 .rx := by
  by_cases ht : 0 < cfg.trailPadLen
  · simp [Seq.settle, Seq.internal, h, ht]
  · have h0 : cfg.trailPadLen = 0 := by omega
    simp [Seq.settle, Seq.internal, h, h0]

theorem Seq.settle_payload_zero (cfg : Config) (len : Nat) :
    Seq.settle cfg len (.pos .payloadStreaming 0 .tx) = Seq.fromPayload cfg len := by
  by_cases h : 0 < len
  · simp [Seq.settle, Seq.internal, Seq.fromPayload, h]
  · rw [Seq.settle_afterPayload _ _ _ h, Seq.fromPayload, if_neg h]

theorem Seq.settle_tx_to_rx (cfg : Config) (len : Nat) (p : Phase) (c : Nat) (hp : p ≠ .leadByteSent) :
    Seq.settle cfg len (.pos p c .rx) = .pos p c .rx := by
  cases p <;> first | exact absurd rfl hp | rfl

theorem Seq.settle_payload (cfg : Config) (len k : Nat) :
    Seq.settle cfg len (.pos .payloadStreaming k .tx) =
      if k < len then .pos .payloadStreaming k .tx else Seq.fromPayload cfg 0 := by
  by_cases h : k < len
  · simp [Seq.settle, Seq.internal, h]
  · rw [Seq.settle_afterPayload _ _ _ h, if_neg h]; rfl

theorem Seq.settle_lead (cfg : Config) (len i : Nat) :
    Seq.settle cfg len (.pos .optionalIdlePad i .tx) =
      if i < cfg.leadPadLen then .pos .optionalIdlePad i .tx else Seq.fromPayload cfg len := by
  by_cases h : i < cfg.leadPadLen
  · simp [Seq.settle, Seq.internal, h]
  · rw [if_neg h]
    by_cases hl : 0 < len
    · simp [Seq.settle, Seq.internal, Seq.fromPayload, h, hl]
    · by_cases ht : 0 < cfg.trailPadLen
      · simp [Seq.settle, Seq.internal, Seq.fromPayload, h, hl, ht]
      · have h0 : cfg.trailPadLen = 0 := by omega
        simp [Seq.settle, Seq.internal, Seq.fromPayload, h, hl, h0]

theorem Seq.settle_trail (cfg : Config) (len i : Nat) :
    Seq.settle cfg len (.pos .trailingPad i .tx) =
      if i < cfg.trailPadLen then .pos .trailingPad i .tx else .pos .draining 0 .rx := by
  by_cases h : i < cfg.trailPadLen
  · simp [Seq.settle, Seq.internal, h]
  · simp [Seq.settle, Seq.internal, h]

/-- From the lead byte (43_sequencer.md R185): the lead pad if there is one, else the payload. -/
theorem Seq.settle_first (cfg : Config) (len c : Nat) (h : Half) :
    Seq.settle cfg len (.pos .leadByteSent c h) =
      if cfg.idlePad = true ∧ 0 < cfg.leadPadLen then .pos .optionalIdlePad 0 .tx else Seq.fromPayload cfg len := by
  by_cases hi : cfg.idlePad = true
  · by_cases hl : 0 < cfg.leadPadLen
    · simp [Seq.settle, Seq.internal, hi, hl]
    · have h0 : cfg.leadPadLen = 0 := by omega
      by_cases hk : 0 < len
      · simp [Seq.settle, Seq.internal, Seq.fromPayload, hi, h0, hk]
      · by_cases ht : 0 < cfg.trailPadLen
        · simp [Seq.settle, Seq.internal, Seq.fromPayload, hi, h0, hk, ht]
        · have h1 : cfg.trailPadLen = 0 := by omega
          simp [Seq.settle, Seq.internal, Seq.fromPayload, hi, h0, hk, h1]
  · have hi : cfg.idlePad = false := by simpa using hi
    by_cases hk : 0 < len
    · simp [Seq.settle, Seq.internal, Seq.fromPayload, hi, hk]
    · by_cases ht : 0 < cfg.trailPadLen
      · simp [Seq.settle, Seq.internal, Seq.fromPayload, hi, hk, ht]
      · have h1 : cfg.trailPadLen = 0 := by omega
        simp [Seq.settle, Seq.internal, Seq.fromPayload, hi, hk, h1]

/-! ### Positions by index (43_sequencer.md R194) -/

/-- `TX` before an even operation of a phase, `RX` before an odd one. -/
def Half.ofParity (m : Nat) : Half := if m % 2 = 0 then .tx else .rx

theorem Seq.ofIndex_zero (cfg : Config) (len : Nat) : Seq.ofIndex cfg len 0 = .idle := rfl

theorem Seq.ofIndex_lead (cfg : Config) (len m : Nat) (h : m < 2 * cfg.leadCycles) :
    Seq.ofIndex cfg len (1 + m) = .pos .optionalIdlePad (m / 2) (Half.ofParity m) := by
  have e : 1 + m - 1 = m := by omega
  simp only [Seq.ofIndex, e]
  rw [if_neg (by omega), if_pos h]; rfl

theorem Seq.ofIndex_payload (cfg : Config) (len m : Nat) (h : m < 2 * len) :
    Seq.ofIndex cfg len (1 + 2 * cfg.leadCycles + m) = .pos .payloadStreaming (m / 2) (Half.ofParity m) := by
  have e : 1 + 2 * cfg.leadCycles + m - 1 - 2 * cfg.leadCycles = m := by omega
  simp only [Seq.ofIndex, e]
  rw [if_neg (by omega), if_neg (by omega), if_pos h]; rfl

theorem Seq.ofIndex_trail (cfg : Config) (len m : Nat) (h : m < 2 * cfg.trailCycles) :
    Seq.ofIndex cfg len (1 + 2 * cfg.leadCycles + 2 * len + m) = .pos .trailingPad (m / 2) (Half.ofParity m) := by
  have e : 1 + 2 * cfg.leadCycles + 2 * len + m - 1 - 2 * cfg.leadCycles - 2 * len = m := by omega
  simp only [Seq.ofIndex, e]
  rw [if_neg (by omega), if_neg (by omega), if_neg (by omega), if_pos h]; rfl

theorem Seq.ofIndex_drain (cfg : Config) (len : Nat) :
    Seq.ofIndex cfg len (1 + 2 * cfg.leadCycles + 2 * len + 2 * cfg.trailCycles) = .pos .draining 0 .rx := by
  simp only [Seq.ofIndex]
  rw [if_neg (by omega), if_neg (by omega), if_neg (by omega), if_neg (by omega)]

theorem Seq.ofIndex_fromPayload (cfg : Config) (len : Nat) :
    Seq.ofIndex cfg len (1 + 2 * cfg.leadCycles) = Seq.fromPayload cfg len := by
  unfold Seq.fromPayload
  by_cases h : 0 < len
  · rw [if_pos h]; exact Seq.ofIndex_payload cfg len 0 (by omega)
  · have h0 : len = 0 := by omega
    subst h0
    rw [if_neg h]
    by_cases ht : 0 < cfg.trailPadLen
    · rw [if_pos ht]; exact Seq.ofIndex_trail cfg 0 0 (by simp only [Config.trailCycles]; omega)
    · rw [if_neg ht]
      have := Seq.ofIndex_drain cfg 0
      rwa [show cfg.trailCycles = 0 by simp only [Config.trailCycles]; omega] at this

theorem Config.leadCycles_pos (cfg : Config) : 0 < cfg.leadCycles ↔ cfg.idlePad = true ∧ 0 < cfg.leadPadLen := by
  unfold Config.leadCycles
  by_cases h : cfg.idlePad = true <;> simp [h]

theorem Config.leadCycles_of_pad (cfg : Config) (h : cfg.idlePad = true) : cfg.leadCycles = cfg.leadPadLen := by
  simp [Config.leadCycles, h]

/-- Every index of an operation is in one phase. -/
theorem Seq.index_cases (cfg : Config) (len j : Nat) (hj : j < cfg.opCount len) :
    j = 0 ∨ (∃ m, m < 2 * cfg.leadCycles ∧ j = 1 + m) ∨ (∃ m, m < 2 * len ∧ j = 1 + 2 * cfg.leadCycles + m) ∨
      (∃ m, m < 2 * cfg.trailCycles ∧ j = 1 + 2 * cfg.leadCycles + 2 * len + m) ∨
      j = 1 + 2 * cfg.leadCycles + 2 * len + 2 * cfg.trailCycles := by
  unfold Config.opCount at hj
  by_cases h0 : j = 0
  · exact .inl h0
  by_cases h1 : j - 1 < 2 * cfg.leadCycles
  · exact .inr (.inl ⟨j - 1, h1, by omega⟩)
  by_cases h2 : j - 1 - 2 * cfg.leadCycles < 2 * len
  · exact .inr (.inr (.inl ⟨_, h2, by omega⟩))
  by_cases h3 : j - 1 - 2 * cfg.leadCycles - 2 * len < 2 * cfg.trailCycles
  · exact .inr (.inr (.inr (.inl ⟨_, h3, by omega⟩)))
  exact .inr (.inr (.inr (.inr (by omega))))

theorem Half.ofParity_even {m : Nat} (h : m % 2 = 0) : Half.ofParity m = .tx := if_pos h

theorem Half.ofParity_odd {m : Nat} (h : m % 2 = 1) : Half.ofParity m = .rx := if_neg (by omega)

/-- Where an `ok` answer at index `j` leads: the position of index `j + 1`. -/
theorem Seq.settle_afterOk_ofIndex (cfg : Config) (len j : Nat) (hj : j + 1 < cfg.opCount len) :
    Seq.settle cfg len (Seq.ofIndex cfg len j).afterOk = Seq.ofIndex cfg len (j + 1) := by
  rcases Seq.index_cases cfg len j (by omega) with rfl | ⟨m, hm, rfl⟩ | ⟨m, hm, rfl⟩ | ⟨m, hm, rfl⟩ | rfl
  · rw [Seq.ofIndex_zero]
    show Seq.settle cfg len (.pos .leadByteSent 0 .tx) = _
    rw [Seq.settle_first]
    by_cases h : 0 < cfg.leadCycles
    · rw [if_pos ((Config.leadCycles_pos cfg).mp h)]; exact (Seq.ofIndex_lead cfg len 0 (by omega)).symm
    · rw [if_neg (mt (Config.leadCycles_pos cfg).mpr h), ← Seq.ofIndex_fromPayload]
      rw [show cfg.leadCycles = 0 by omega]
  · have hp : cfg.idlePad = true := ((Config.leadCycles_pos cfg).mp (by omega)).1
    have hl := Config.leadCycles_of_pad cfg hp
    rw [Seq.ofIndex_lead _ _ _ hm]
    rcases Nat.mod_two_eq_zero_or_one m with h | h
    · rw [Half.ofParity_even h, show (1 + m + 1) = 1 + (m + 1) by omega, Seq.ofIndex_lead _ _ _ (by omega),
        Half.ofParity_odd (by omega), show (m + 1) / 2 = m / 2 by omega]
      rfl
    · rw [Half.ofParity_odd h]
      show Seq.settle cfg len (.pos .optionalIdlePad (m / 2 + 1) .tx) = _
      rw [Seq.settle_lead, ← hl]
      by_cases hn : m + 1 < 2 * cfg.leadCycles
      · rw [if_pos (by omega), show (1 + m + 1) = 1 + (m + 1) by omega, Seq.ofIndex_lead _ _ _ hn,
          Half.ofParity_even (by omega), show (m + 1) / 2 = m / 2 + 1 by omega]
      · rw [if_neg (by omega), ← Seq.ofIndex_fromPayload, show 1 + m + 1 = 1 + 2 * cfg.leadCycles by omega]
  · rw [Seq.ofIndex_payload _ _ _ hm]
    rcases Nat.mod_two_eq_zero_or_one m with h | h
    · rw [Half.ofParity_even h, Nat.add_assoc, Seq.ofIndex_payload _ _ _ (by omega),
        Half.ofParity_odd (by omega), show (m + 1) / 2 = m / 2 by omega]
      rfl
    · rw [Half.ofParity_odd h]
      show Seq.settle cfg len (.pos .payloadStreaming (m / 2 + 1) .tx) = _
      rw [Seq.settle_payload, Nat.add_assoc (1 + 2 * cfg.leadCycles)]
      by_cases hn : m + 1 < 2 * len
      · rw [if_pos (by omega), Seq.ofIndex_payload _ _ _ hn,
          Half.ofParity_even (by omega), show (m + 1) / 2 = m / 2 + 1 by omega]
      · rw [if_neg (by omega), show m + 1 = 2 * len by omega]
        unfold Seq.fromPayload
        rw [if_neg (by omega)]
        by_cases ht : 0 < cfg.trailPadLen
        · rw [if_pos ht]; exact (Seq.ofIndex_trail cfg len 0 (by simp only [Config.trailCycles]; omega)).symm
        · rw [if_neg ht]
          have := Seq.ofIndex_drain cfg len
          rw [show cfg.trailCycles = 0 by simp only [Config.trailCycles]; omega] at this
          exact this.symm
  · rw [Seq.ofIndex_trail _ _ _ hm]
    have htr : cfg.trailCycles = cfg.trailPadLen := rfl
    rcases Nat.mod_two_eq_zero_or_one m with h | h
    · rw [Half.ofParity_even h, Nat.add_assoc, Seq.ofIndex_trail _ _ _ (by omega),
        Half.ofParity_odd (by omega), show (m + 1) / 2 = m / 2 by omega]
      rfl
    · rw [Half.ofParity_odd h]
      show Seq.settle cfg len (.pos .trailingPad (m / 2 + 1) .tx) = _
      rw [Seq.settle_trail, Nat.add_assoc (1 + 2 * cfg.leadCycles + 2 * len)]
      by_cases hn : m + 1 < 2 * cfg.trailCycles
      · rw [if_pos (by omega), Seq.ofIndex_trail _ _ _ hn,
          Half.ofParity_even (by omega), show (m + 1) / 2 = m / 2 + 1 by omega]
      · rw [if_neg (by omega), show m + 1 = 2 * cfg.trailCycles by omega, Seq.ofIndex_drain]
  · unfold Config.opCount at hj; omega

/-- The last index is the final drain. -/
theorem Seq.ofIndex_last (cfg : Config) (len : Nat) : Seq.ofIndex cfg len (cfg.opCount len - 1) = .pos .draining 0 .rx := by
  rw [show cfg.opCount len - 1 = 1 + 2 * cfg.leadCycles + 2 * len + 2 * cfg.trailCycles by unfold Config.opCount; omega]
  exact Seq.ofIndex_drain cfg len

/-- Only the last index is the final drain. -/
theorem Seq.ofIndex_ne_draining (cfg : Config) (len j : Nat) (hj : j + 1 < cfg.opCount len) (c : Nat) (h : Half) :
    Seq.ofIndex cfg len j ≠ .pos .draining c h := by
  rcases Seq.index_cases cfg len j (by omega) with rfl | ⟨m, hm, rfl⟩ | ⟨m, hm, rfl⟩ | ⟨m, hm, rfl⟩ | rfl
  · simp [Seq.ofIndex_zero]
  · simp [Seq.ofIndex_lead _ _ _ hm]
  · simp [Seq.ofIndex_payload _ _ _ hm]
  · simp [Seq.ofIndex_trail _ _ _ hm]
  · unfold Config.opCount at hj; omega

/-- Past the first operation the position is not `Idle`. -/
theorem Seq.ofIndex_ne_idle (cfg : Config) (len j : Nat) (h0 : 0 < j) (hj : j < cfg.opCount len) :
    Seq.ofIndex cfg len j ≠ .idle := by
  rcases Seq.index_cases cfg len j hj with rfl | ⟨m, hm, rfl⟩ | ⟨m, hm, rfl⟩ | ⟨m, hm, rfl⟩ | rfl
  · exact absurd h0 (by omega)
  · simp [Seq.ofIndex_lead _ _ _ hm]
  · simp [Seq.ofIndex_payload _ _ _ hm]
  · simp [Seq.ofIndex_trail _ _ _ hm]
  · simp [Seq.ofIndex_drain]

/-- Every legal position is the position of its index. -/
theorem Seq.ofIndex_index {cfg : Config} {len : Nat} {q : Seq} (h : q.legal cfg len) :
    Seq.ofIndex cfg len (q.index cfg len) = q ∧ q.index cfg len < cfg.opCount len := by
  unfold Config.opCount
  rcases q with _ | ⟨p, c, hf⟩
  · exact ⟨rfl, by simp only [Seq.index]; omega⟩
  · cases p
    · exact absurd h (by simp [Seq.legal])
    · simp only [Seq.legal] at h
      have hl := Config.leadCycles_of_pad cfg h.1
      cases hf <;> simp only [Seq.index, Half.bit]
      · refine ⟨?_, by omega⟩
        rw [Nat.add_zero, Seq.ofIndex_lead _ _ _ (by omega), Half.ofParity_even (by omega), show 2 * c / 2 = c by omega]
      · refine ⟨?_, by omega⟩
        rw [Nat.add_assoc, Seq.ofIndex_lead _ _ _ (by omega), Half.ofParity_odd (by omega), show (2 * c + 1) / 2 = c by omega]
    · simp only [Seq.legal] at h
      cases hf <;> simp only [Seq.index, Half.bit]
      · refine ⟨?_, by omega⟩
        rw [Nat.add_zero, Seq.ofIndex_payload _ _ _ (by omega), Half.ofParity_even (by omega), show 2 * c / 2 = c by omega]
      · refine ⟨?_, by omega⟩
        rw [Nat.add_assoc _ (2 * c), Seq.ofIndex_payload _ _ _ (by omega), Half.ofParity_odd (by omega),
          show (2 * c + 1) / 2 = c by omega]
    · simp only [Seq.legal] at h
      have htr : cfg.trailCycles = cfg.trailPadLen := rfl
      cases hf <;> simp only [Seq.index, Half.bit]
      · refine ⟨?_, by omega⟩
        rw [Nat.add_zero, Seq.ofIndex_trail _ _ _ (by omega), Half.ofParity_even (by omega), show 2 * c / 2 = c by omega]
      · refine ⟨?_, by omega⟩
        rw [Nat.add_assoc _ (2 * c), Seq.ofIndex_trail _ _ _ (by omega), Half.ofParity_odd (by omega),
          show (2 * c + 1) / 2 = c by omega]
    · simp only [Seq.legal] at h
      obtain ⟨rfl, rfl⟩ := h
      exact ⟨Seq.ofIndex_drain cfg len, by simp only [Seq.index]; omega⟩

/-- The position of an index is legal, and its index is that index. -/
theorem Seq.legal_ofIndex {cfg : Config} {len j : Nat} (hj : j < cfg.opCount len) :
    (Seq.ofIndex cfg len j).legal cfg len ∧ (Seq.ofIndex cfg len j).index cfg len = j := by
  rcases Seq.index_cases cfg len j hj with rfl | ⟨m, hm, rfl⟩ | ⟨m, hm, rfl⟩ | ⟨m, hm, rfl⟩ | rfl
  · exact ⟨trivial, rfl⟩
  · have hp : cfg.idlePad = true := ((Config.leadCycles_pos cfg).mp (by omega)).1
    have hl := Config.leadCycles_of_pad cfg hp
    rw [Seq.ofIndex_lead _ _ _ hm]
    refine ⟨⟨hp, by omega⟩, ?_⟩
    rcases Nat.mod_two_eq_zero_or_one m with h | h
    · rw [Half.ofParity_even h]; simp only [Seq.index, Half.bit]; omega
    · rw [Half.ofParity_odd h]; simp only [Seq.index, Half.bit]; omega
  · rw [Seq.ofIndex_payload _ _ _ hm]
    refine ⟨show m / 2 < len by omega, ?_⟩
    rcases Nat.mod_two_eq_zero_or_one m with h | h
    · rw [Half.ofParity_even h]; simp only [Seq.index, Half.bit]; omega
    · rw [Half.ofParity_odd h]; simp only [Seq.index, Half.bit]; omega
  · have htr : cfg.trailCycles = cfg.trailPadLen := rfl
    rw [Seq.ofIndex_trail _ _ _ hm]
    refine ⟨show m / 2 < cfg.trailPadLen by omega, ?_⟩
    rcases Nat.mod_two_eq_zero_or_one m with h | h
    · rw [Half.ofParity_even h]; simp only [Seq.index, Half.bit]; omega
    · rw [Half.ofParity_odd h]; simp only [Seq.index, Half.bit]; omega
  · rw [Seq.ofIndex_drain]; exact ⟨⟨rfl, rfl⟩, rfl⟩

/-! ### The operation a position issues -/

/-- What is issued depends on `cfg`, the payload, `run` and `seq`; at the position of index `j` it is `ops[j]`. -/
theorem Block.issues_ofIndex {s : Block} {src : Source} {j : Nat} (hr : s.run = some src)
    (hj : j < s.cfg.opCount (s.payloadLen src)) (hq : s.seq = Seq.ofIndex s.cfg (s.payloadLen src) j) :
    s.issues = (opList s.cfg (s.payload src))[j]? := by
  rw [opList_getElem? _ _ _ (by rwa [Block.payload_length]), Block.payload_length]
  unfold Block.issues
  rw [hr, hq]
  rcases Seq.index_cases _ _ _ hj with rfl | ⟨m, hm, rfl⟩ | ⟨m, hm, rfl⟩ | ⟨m, hm, rfl⟩ | rfl
  · rfl
  · rw [Seq.ofIndex_lead _ _ _ hm]
    have e : 1 + m - 1 = m := by omega
    simp only [e]
    rw [if_neg (by omega), if_pos hm]
    rcases Nat.mod_two_eq_zero_or_one m with h | h
    · rw [Half.ofParity_even h, if_pos h]
    · rw [Half.ofParity_odd h, if_neg (by omega)]
  · rw [Seq.ofIndex_payload _ _ _ hm]
    have e : 1 + 2 * s.cfg.leadCycles + m - 1 - 2 * s.cfg.leadCycles = m := by omega
    simp only [e]
    rw [if_neg (by omega), if_neg (by omega), if_pos hm]
    rcases Nat.mod_two_eq_zero_or_one m with h | h
    · rw [Half.ofParity_even h, if_pos h]
      have hb := Block.payload_getElem? s src (m / 2)
      rw [if_pos (by omega)] at hb
      simp [List.getD_eq_getElem?_getD, hb]
    · rw [Half.ofParity_odd h, if_neg (by omega)]
  · rw [Seq.ofIndex_trail _ _ _ hm]
    have e : 1 + 2 * s.cfg.leadCycles + 2 * s.payloadLen src + m - 1 - 2 * s.cfg.leadCycles - 2 * s.payloadLen src = m := by
      omega
    simp only [e]
    rw [if_neg (by omega), if_neg (by omega), if_neg (by omega), if_pos hm]
    rcases Nat.mod_two_eq_zero_or_one m with h | h
    · rw [Half.ofParity_even h, if_pos h]
    · rw [Half.ofParity_odd h, if_neg (by omega)]
  · rw [Seq.ofIndex_drain, if_neg (by omega), if_neg (by omega), if_neg (by omega), if_neg (by omega)]

/-- A legal position issues the operation of its index. -/
theorem Block.issues_of_legal {s : Block} {src : Source} (hr : s.run = some src)
    (hl : s.seq.legal s.cfg (s.payloadLen src)) :
    s.issues = (opList s.cfg (s.payload src))[s.seq.index s.cfg (s.payloadLen src)]? := by
  have h := Seq.ofIndex_index hl
  exact Block.issues_ofIndex hr h.2 h.1.symm

/-! ### One operation -/

theorem Seq.fromPayload_ne_idle (cfg : Config) (len : Nat) : Seq.fromPayload cfg len ≠ .idle := by
  unfold Seq.fromPayload
  split
  · simp
  · split <;> simp

/-- The sequencer is idle after the answer to the final drain, and after no other. -/
theorem Block.nextSeq_idle {s : Block} {src : Source} (hr : s.run = some src) :
    s.nextSeq = .idle ↔ ∃ c h, s.seq = .pos .draining c h := by
  have hf := Seq.fromPayload_ne_idle s.cfg
  unfold Block.nextSeq
  rw [hr]
  rcases hq : s.seq with _ | ⟨p, c, h⟩
  · simp only [Seq.afterOk, Seq.settle_first]
    split <;> simp [hf]
  · cases p <;> cases h <;>
      simp only [Seq.afterOk, Seq.settle_first, Seq.settle_lead, Seq.settle_payload, Seq.settle_trail] <;>
      (try split) <;> simp_all [Seq.settle, Seq.internal]

/-- The answer to the final drain ends the run. -/
theorem Block.advance_draining {s : Block} {src : Source} {c : Nat} {h : Half} (hr : s.run = some src)
    (hq : s.seq = .pos .draining c h) : s.advance = s.endRun .ok := by
  unfold Block.advance
  rw [(Block.nextSeq_idle hr).mpr ⟨c, h, hq⟩]

/-- Any other answer moves the position and changes nothing else. -/
theorem Block.advance_other {s : Block} {src : Source} (hr : s.run = some src)
    (hq : ∀ c h, s.seq ≠ .pos .draining c h) : s.advance = { s with seq := s.nextSeq } := by
  unfold Block.advance
  split
  · rename_i h
    obtain ⟨c, h', hq'⟩ := (Block.nextSeq_idle hr).mp h
    exact absurd hq' (hq c h')
  · rfl

theorem Block.advance_frame (s : Block) :
    s.advance = { s with seq := s.advance.seq, run := s.advance.run, last := s.advance.last } := by
  unfold Block.advance
  split <;> rfl

/-- An operation is issued only while a transmission runs. -/
theorem Block.run_of_issues {s : Block} {op : XcvrOp} (h : s.issues = some op) : ∃ src, s.run = some src := by
  unfold Block.issues at h
  split at h
  · cases h
  · exact ⟨_, by assumption⟩

/-- Everything the block does with an answer, but wait. -/
theorem Block.respond_ok {b b' : Block} {op : XcvrOp} {a : Answer} (h : b.respond op a = .ok b') :
    (∃ v, a = .ok v ∧ b' = (b.logged op (okReply op v)).advance) ∨
      ∃ e, a = .err e ∧ b' = (b.logged op (.err e)).endRun (.err e) := by
  cases a with
  | ok v => exact .inl ⟨v, rfl, (Except.ok.inj h).symm⟩
  | err e => exact .inr ⟨e, rfl, (Except.ok.inj h).symm⟩
  | never => cases h

/-- What an answer can change: the position, the running command with its end, and the ghost trace. -/
theorem Block.respond_frame {b b' : Block} {op : XcvrOp} {a : Answer} (h : b.respond op a = .ok b') :
    b' = { b with seq := b'.seq, run := b'.run, last := b'.last, trace := b'.trace } := by
  obtain ⟨v, -, rfl⟩ | ⟨e, -, rfl⟩ := Block.respond_ok h
  · rw [Block.advance_frame]; rfl
  · rfl

/-- The operation the sequencer issues: the transceiver's answer goes to the block. -/
theorem State.transceive_issued {s : State} {op : XcvrOp} (h : s.issues = some op) :
    s.transceive op = orFault (s.respond op s.xcvr.answer) fun b =>
      .next { s with toBlock := b, xcvr := s.xcvr.answered } := if_pos h

/-- Everything one transceiver operation can do: the block's response to the answer, and the transceiver's next answer. -/
theorem State.transceive_next {s t : State} {op : XcvrOp} (h : s.transceive op = .next t) :
    s.issues = some op ∧ ∃ b, s.respond op s.xcvr.answer = .ok b ∧
      t = { s with toBlock := b, xcvr := s.xcvr.answered } := by
  by_cases hi : s.issues = some op
  · rw [State.transceive_issued hi] at h
    obtain ⟨b, hb, h⟩ := orFault_next h
    exact ⟨hi, b, hb, (Host.Outcome.next.inj h).symm⟩
  · rw [State.transceive, if_neg hi] at h; cases h

/-- What the sequencer can change: the position, the running command with its end, the ghost trace and the transceiver. -/
theorem State.transceive_frame {s t : State} {op : XcvrOp} (h : s.transceive op = .next t) :
    t = { s with seq := t.seq, run := t.run, last := t.last, trace := t.trace, xcvr := s.xcvr.answered } := by
  obtain ⟨-, b, hb, rfl⟩ := State.transceive_next h
  rw [Block.respond_frame hb]

theorem State.transceive_ne_refused {s : State} {op : XcvrOp} {why : Refusal} : s.transceive op ≠ .refused why := by
  unfold State.transceive
  split
  · exact orFault_ne_refused fun _ => by simp
  · simp

end Sys2Proof.Machine
end

