-- ==== Sys2Proof/Laws/Store.lean ====
section
/-! SUPPORT. The fill of `S.WRITE_ALL` in closed form: where the colours fit it is two writes in a row, and where they do not,
which fault it is. -/

namespace Sys2Proof.Machine

/-! ### Reads -/

theorem State.readRaw_ok {s : State} {idx : Nat} (h : idx < 3 * s.cfg.n) :
    s.readRaw idx = .next (s.answer (.byte (s.chan.read idx))) := by
  unfold State.readRaw; rw [State.memRead_one h]; rfl

theorem State.readRaw_out {s : State} {idx : Nat} (h : 3 * s.cfg.n ≤ idx) :
    s.readRaw idx = .fault .slotIndexOutOfRange := by
  unfold State.readRaw; rw [State.memRead_out (by simp [Config.slots]; omega)]; rfl

theorem State.readColour_ok {s : State} {v : Variant} {i : Nat} (h : i < s.cfg.n) :
    s.readColour v i = .next (s.answer (.colour (s.colourAt v i))) := by
  unfold State.readColour; rw [State.checkPixel_ok h]; rfl

theorem State.readColour_out {s : State} {v : Variant} {i : Nat} (h : s.cfg.n ≤ i) :
    s.readColour v i = .fault .pixelIndexOutOfRange := by
  unfold State.readColour; rw [State.checkPixel_out h]; rfl

/-! ### The fill -/

theorem Memory.writeList_append (m : Memory) (a : Nat) (vs ws : List Byte) :
    Memory.writeList m a (vs ++ ws) = Memory.writeList (Memory.writeList m a vs) (a + vs.length) ws := by
  induction vs generalizing m a with
  | nil => simp [Memory.writeList]
  | cons v vs ih => simp [Memory.writeList, ih, Nat.add_assoc, Nat.add_comm 1 vs.length]

@[simp] theorem Encoder.pixel12_length (c : Colour) : (Encoder.pixel12 c).length = 12 := rfl

theorem flatMap_pixel12_length (cs : List Colour) : (cs.flatMap Encoder.pixel12).length = 12 * cs.length := by
  induction cs with
  | nil => rfl
  | cons c cs ih => simp [ih]; omega

theorem flatMap_slotBytes_length (v : Variant) (cs : List Colour) :
    (cs.flatMap (slotBytes v)).length = 3 * cs.length := by
  induction cs with
  | nil => rfl
  | cons c cs ih => simp [ih]; omega

/-- The three slot bytes of a colour in a written sequence. -/
theorem flatMap_slotBytes_getElem? (v : Variant) (cs : List Colour) (i k : Nat) (hk : k < 3) :
    (cs.flatMap (slotBytes v))[3 * i + k]? = cs[i]?.bind fun c => (slotBytes v c)[k]? := by
  induction cs generalizing i with
  | nil => simp
  | cons c cs ih =>
    simp only [List.flatMap_cons]
    cases i with
    | zero => rw [List.getElem?_append_left (by simp; omega)]; simp
    | succ i =>
      rw [List.getElem?_append_right (by simp; omega), slotBytes_length,
        show 3 * (i + 1) + k - 3 = 3 * i + k by omega, ih]
      simp

/-- The twelve wire bytes of a colour in a written sequence. -/
theorem flatMap_pixel12_getElem? (cs : List Colour) (i k : Nat) (hk : k < 12) :
    (cs.flatMap Encoder.pixel12)[12 * i + k]? = cs[i]?.bind fun c => (Encoder.pixel12 c)[k]? := by
  induction cs generalizing i with
  | nil => simp
  | cons c cs ih =>
    simp only [List.flatMap_cons]
    cases i with
    | zero => rw [List.getElem?_append_left (by simp; omega)]; simp
    | succ i =>
      rw [List.getElem?_append_right (by simp; omega), Encoder.pixel12_length,
        show 12 * (i + 1) + k - 12 = 12 * i + k by omega, ih]
      simp

/-- Every byte of a written sequence's wire form is a waveform byte. -/
theorem isWave_flatMap_pixel12 {cs : List Colour} {b : Byte} (h : b ∈ cs.flatMap Encoder.pixel12) :
    Encoder.isWave b = true := by
  obtain ⟨c, -, hb⟩ := List.mem_flatMap.mp h
  simp only [Encoder.pixel12, List.mem_append] at hb
  rcases hb with (hb | hb) | hb <;> exact Encoder.isWave_encode hb

/-- The state after a fill from the colour at position `i` on. -/
def State.filled (s : State) (i : Nat) (cs : List Colour) : State :=
  { s with
    chan := s.chan.writeList (3 * i) (cs.flatMap (slotBytes .S))
    enc := s.enc.writeList s.cursor (cs.flatMap Encoder.pixel12)
    cursor := s.cursor + 12 * cs.length }

theorem State.appendChannel_ok {s : State} {ch : Byte} (h : s.cursor + 4 ≤ s.cfg.encCap) :
    s.appendChannel ch =
      .ok { s with enc := s.enc.writeList s.cursor (Encoder.encode ch), cursor := s.cursor + 4 } := by
  unfold State.appendChannel
  rw [State.encWrite_ok (by simpa [Encoder.encode_length] using h)]

theorem State.appendChannel_out {s : State} {ch : Byte} (h : s.cfg.encCap < s.cursor + 4) :
    s.appendChannel ch = .error .encOverflow := by
  unfold State.appendChannel
  rw [State.encWrite_out (by simpa [Encoder.encode_length] using h)]

theorem State.appendColour_ok {s : State} {c : Colour} (h : s.cursor + 12 ≤ s.cfg.encCap) :
    s.appendColour c =
      .ok { s with enc := s.enc.writeList s.cursor (Encoder.pixel12 c), cursor := s.cursor + 12 } := by
  unfold State.appendColour
  rw [State.appendChannel_ok (by omega)]
  simp only []
  rw [State.appendChannel_ok (by simp only []; omega)]
  simp only []
  rw [State.appendChannel_ok (by simp only []; omega)]
  simp only [Encoder.pixel12, Memory.writeList_append, List.length_append, Encoder.encode_length]

theorem State.appendColour_out {s : State} {c : Colour} (h : s.cfg.encCap < s.cursor + 12) :
    s.appendColour c = .error .encOverflow := by
  unfold State.appendColour
  by_cases h1 : s.cursor + 4 ≤ s.cfg.encCap
  · rw [State.appendChannel_ok h1]
    simp only []
    by_cases h2 : s.cursor + 8 ≤ s.cfg.encCap
    · rw [State.appendChannel_ok (by simp only []; omega)]
      simp only []
      rw [State.appendChannel_out (by simp only []; omega)]
    · rw [State.appendChannel_out (by simp only []; omega)]
  · rw [State.appendChannel_out (by omega)]

theorem State.fillOne_ok {s : State} {i : Nat} {c : Colour} (hi : i < s.cfg.n) (h : s.cursor + 12 ≤ s.cfg.encCap) :
    s.fillOne i c = .ok { s with
      chan := s.chan.writeList (3 * i) (slotBytes .S c)
      enc := s.enc.writeList s.cursor (Encoder.pixel12 c)
      cursor := s.cursor + 12 } := by
  unfold State.fillOne
  rw [if_pos hi, State.storeColour_ok hi]
  simp only []
  rw [State.appendColour_ok (by simpa using h)]
  rfl

theorem State.fillOne_noPixel {s : State} {i : Nat} {c : Colour} (hi : s.cfg.n ≤ i) :
    s.fillOne i c = .error .tooManyColors := by
  unfold State.fillOne; rw [if_neg (Nat.not_lt.mpr hi)]

theorem State.fillOne_overflow {s : State} {i : Nat} {c : Colour} (hi : i < s.cfg.n)
    (h : s.cfg.encCap < s.cursor + 12) : s.fillOne i c = .error .encOverflow := by
  unfold State.fillOne
  rw [if_pos hi, State.storeColour_ok hi]
  simp only []
  rw [State.appendColour_out (by simpa using h)]

/-- Where every colour has a pixel and its bytes fit, the fill is `State.filled`. -/
theorem State.fill_ok {s : State} {i : Nat} {cs : List Colour}
    (h : cs ≠ [] → i + cs.length ≤ s.cfg.n ∧ s.cursor + 12 * cs.length ≤ s.cfg.encCap) :
    s.fill i cs = .ok (s.filled i cs) := by
  induction cs generalizing s i with
  | nil => simp [State.fill, State.filled, Memory.writeList]
  | cons c cs ih =>
    obtain ⟨h1, h2⟩ := h (by simp)
    simp only [List.length_cons] at h1 h2
    unfold State.fill
    rw [State.fillOne_ok (by omega) (by omega)]
    simp only []
    rw [ih (fun _ => ⟨by simp only []; omega, by simp only []; omega⟩)]
    simp only [State.filled, List.flatMap_cons, Memory.writeList_append, slotBytes_length, Encoder.pixel12_length,
      List.length_cons]
    rw [show 3 * (i + 1) = 3 * i + 3 by omega,
      show s.cursor + 12 + 12 * cs.length = s.cursor + 12 * (cs.length + 1) by omega]

/-- A fill that faults takes its first colour without a pixel, or its first without room in `enc`. -/
theorem State.fill_error {s : State} {i : Nat} {cs : List Colour} (hc : cs ≠ [])
    (h : ¬(i + cs.length ≤ s.cfg.n ∧ s.cursor + 12 * cs.length ≤ s.cfg.encCap)) :
    s.fill i cs = .error (if i < s.cfg.n ∧ s.cfg.encCap < s.cursor + 12 * min cs.length (s.cfg.n - i) then .encOverflow
      else .tooManyColors) := by
  induction cs generalizing s i with
  | nil => exact absurd rfl hc
  | cons c cs ih =>
    simp only [List.length_cons] at h ⊢
    unfold State.fill
    by_cases hi : i < s.cfg.n
    · by_cases he : s.cursor + 12 ≤ s.cfg.encCap
      · rw [State.fillOne_ok hi he]
        simp only []
        have hne : cs ≠ [] := by
          rintro rfl
          exact h ⟨by simpa using hi, by simpa using he⟩
        rw [ih hne (by simp only []; omega)]
        congr 1
        have hm : s.cursor + 12 + 12 * min cs.length (s.cfg.n - (i + 1)) =
            s.cursor + 12 * min (cs.length + 1) (s.cfg.n - i) := by omega
        have hiff : (i + 1 < s.cfg.n ∧ s.cfg.encCap < s.cursor + 12 + 12 * min cs.length (s.cfg.n - (i + 1))) ↔
            (i < s.cfg.n ∧ s.cfg.encCap < s.cursor + 12 * min (cs.length + 1) (s.cfg.n - i)) := by omega
        simp only [hiff]
      · rw [State.fillOne_overflow hi (by omega)]
        simp only []
        rw [if_pos ⟨hi, by omega⟩]
    · rw [State.fillOne_noPixel (by omega)]
      simp only []
      rw [if_neg fun hx => hi hx.1]

/-- A fill that answers a state is `State.filled`, and the colours fitted. -/
theorem State.fill_eq_ok {s t : State} {i : Nat} {cs : List Colour} (h : s.fill i cs = .ok t) :
    t = s.filled i cs ∧ (cs ≠ [] → i + cs.length ≤ s.cfg.n ∧ s.cursor + 12 * cs.length ≤ s.cfg.encCap) := by
  by_cases hc : cs = []
  · subst hc; simp [State.fill] at h; subst h; simp [State.filled, Memory.writeList]
  · by_cases hf : i + cs.length ≤ s.cfg.n ∧ s.cursor + 12 * cs.length ≤ s.cfg.encCap
    · rw [State.fill_ok fun _ => hf] at h
      exact ⟨by simpa using h.symm, fun _ => hf⟩
    · rw [State.fill_error hc hf] at h; cases h

/-! ### The buffers after a fill from the first colour -/

/-- The slots of a written pixel. -/
theorem State.filled_chan_read {s : State} {cs : List Colour} {i k : Nat} {c : Colour} (hw : s.chan.wf = true)
    (hi : cs[i]? = some c) (hk : k < 3) :
    (s.filled 0 cs).chan.read (3 * i + k) = ((slotBytes .S c)[k]?).getD 0 := by
  have hlt : i < cs.length := (List.getElem?_eq_some_iff.mp hi).1
  show Memory.read (s.chan.writeList (3 * 0) _) _ = _
  rw [Memory.read_writeList hw, flatMap_slotBytes_length, if_pos (by omega), List.getD_eq_getElem?_getD,
    show 3 * i + k - 3 * 0 = 3 * i + k by omega, flatMap_slotBytes_getElem? _ _ _ _ hk, hi]
  rfl

/-- The slots of the pixels that are not written. -/
theorem State.filled_chan_rest {s : State} {cs : List Colour} {a : Nat} (hw : s.chan.wf = true) (ha : 3 * cs.length ≤ a) :
    (s.filled 0 cs).chan.read a = s.chan.read a := by
  show Memory.read (s.chan.writeList (3 * 0) _) _ = _
  rw [Memory.read_writeList hw, flatMap_slotBytes_length, if_neg (by omega)]

/-- The filled prefix of `enc` is the wire form of the colours in order. -/
theorem State.filled_enc_prefix {s : State} {cs : List Colour} (hw : s.enc.wf = true) (hk : s.cursor = 0) :
    (s.filled 0 cs).enc.readList 0 (12 * cs.length) = cs.flatMap Encoder.pixel12 := by
  have h := Memory.readList_writeList (m := s.enc) (a := 0) (vs := cs.flatMap Encoder.pixel12) hw
  rw [flatMap_pixel12_length] at h
  show Memory.readList (s.enc.writeList s.cursor _) _ _ = _
  rw [hk]; exact h

/-- The bytes of `enc` behind the cursor keep their values. -/
theorem State.filled_enc_rest {s : State} {cs : List Colour} {a : Nat} (hw : s.enc.wf = true) (hk : s.cursor = 0)
    (ha : 12 * cs.length ≤ a) : (s.filled 0 cs).enc.read a = s.enc.read a := by
  show Memory.read (s.enc.writeList s.cursor _) _ = _
  rw [Memory.read_writeList hw, flatMap_pixel12_length, if_neg (by omega)]

end Sys2Proof.Machine
end

