-- ==== Sys2Proof/Laws/Step.lean ====
section
/-! SUPPORT. What a step can do, said once: the three places its words come from, and each meaning in one inversion lemma. -/

namespace Sys2Proof.Machine

/-! ### Fetch -/

theorem State.fetch_busy {s : State} {op : XcvrOp} (hb : s.busy = true) (hi : s.issues = some op) :
    s.fetch = .words (.xcvr (xcvrWord op)) s := by simp [State.fetch, hb, hi]

theorem State.fetch_waiting {s : State} (hb : s.busy = true) (hi : s.issues = none) : s.fetch = .nothing := by
  simp [State.fetch, hb, hi]

theorem State.fetch_unit {s : State} {ws : Words} {us : List Words} (hb : s.busy = false) (hu : s.units = ws :: us) :
    s.fetch = .words ws { s with units := us } := by simp [State.fetch, hb, hu]

theorem State.fetch_idle {s : State} (hb : s.busy = false) (hu : s.units = []) (hc : s.cmds = []) :
    s.fetch = .nothing := by simp [State.fetch, hb, hu, hc]

theorem State.fetch_short {s : State} {w : CmdWord} {ws : List CmdWord} (hb : s.busy = false) (hu : s.units = [])
    (hc : s.cmds = w :: ws) (hl : s.colours.length < colourCount w) : s.fetch = .nothing := by
  simp [State.fetch, hb, hu, hc, hl]

theorem State.fetch_command {s : State} {w : CmdWord} {ws : List CmdWord} (hb : s.busy = false) (hu : s.units = [])
    (hc : s.cmds = w :: ws) (hl : colourCount w ≤ s.colours.length) :
    s.fetch = .words (.cmd w (s.colours.take (colourCount w))) (s.takeCommand w) := by
  simp [State.fetch, hb, hu, hc, Nat.not_lt.mpr hl]

/-! ### The step, by what it finds -/

/-- The operation a running transmission issues, through its word on the port. -/
theorem step_operation {s : State} {op : XcvrOp} (hb : s.busy = true) (hi : s.issues = some op) :
    step s = s.transceive op := by
  unfold step
  rw [State.fetch_busy hb hi]
  simp only [decode, decodeXcvr_xcvrWord]
  cases op <;> rfl

theorem step_nothing {s : State} (h : s.fetch = .nothing) : step s = .next s := by
  unfold step; rw [h]

theorem step_words {s s' : State} {ws : Words} {i : Instr} (h : s.fetch = .words ws s') (hd : decode s.cfg ws = .ok i) :
    step s = exec i s' := by
  unfold step; rw [h]; simp only [hd]

/-- A command word with its colour words always decodes. -/
theorem decode_command (cfg : Config) {w : CmdWord} {colours : List ColourWord} (h : colours.length = colourCount w) :
    decode cfg (.cmd w colours) = .ok (decodeCmd cfg.variant w colours) := by simp [decode, h]

/-- Everything a step that answers a next state can have been: nothing to do, the sequencer's operation, a word at a component,
or a command. -/
theorem step_next {s t : State} (h : step s = .next t) :
    (t = s) ∨
    (∃ op, s.busy = true ∧ s.issues = some op ∧ s.transceive op = .next t) ∨
    (∃ ws us i, s.busy = false ∧ s.units = ws :: us ∧ decode s.cfg ws = .ok i ∧ exec i { s with units := us } = .next t) ∨
    (∃ w ws i, s.busy = false ∧ s.units = [] ∧ s.cmds = w :: ws ∧ colourCount w ≤ s.colours.length ∧
      decode s.cfg (.cmd w (s.colours.take (colourCount w))) = .ok i ∧ exec i (s.takeCommand w) = .next t) := by
  cases hb : s.busy with
  | true =>
    cases hi : s.issues with
    | none => rw [step_nothing (State.fetch_waiting hb hi)] at h; exact .inl (by simpa using h.symm)
    | some op => rw [step_operation hb hi] at h; exact .inr (.inl ⟨op, rfl, rfl, h⟩)
  | false =>
    cases hu : s.units with
    | cons ws us =>
      unfold step at h
      rw [State.fetch_unit hb hu] at h
      simp only at h
      split at h
      · rename_i i hd
        exact .inr (.inr (.inl ⟨ws, us, i, rfl, rfl, hd, h⟩))
      · cases h
    | nil =>
      cases hc : s.cmds with
      | nil => rw [step_nothing (State.fetch_idle hb hu hc)] at h; exact .inl (by simpa using h.symm)
      | cons w ws =>
        by_cases hl : colourCount w ≤ s.colours.length
        · have hd := decode_command s.cfg (w := w) (colours := s.colours.take (colourCount w)) (by simpa using hl)
          rw [step_words (State.fetch_command hb hu hc hl) hd] at h
          exact .inr (.inr (.inr ⟨w, ws, _, rfl, rfl, rfl, hl, hd, h⟩))
        · rw [step_nothing (State.fetch_short hb hu hc (by omega))] at h; exact .inl (by simpa using h.symm)

/-! ### The meanings, by what they leave -/

/-- Everything an instruction other than a transceiver operation can leave: a response or a refusal and nothing else, a write to
the store, or a started transmission. -/
inductive Effect (s : State) : State → Prop where
  /-- Only the end of the command is new: reads, refusals, the Bit Encoder. -/
  | ended (e : Ended) (he : e ≠ .running) : Effect s { s with last := e }
  | pConstruct (hv : s.cfg.variant = .P) (hb : s.busy = false) : Effect s (s.zeroChan.answer .nothing)
  | sConstruct (hv : s.cfg.variant = .S) (hb : s.busy = false) : Effect s (s.zeroChan.zeroEnc.answer .nothing)
  /-- `P.SET_COLOR` and `S.WRITE_RAW`: bytes inside the slot space. -/
  | stored (a : Nat) (vs : List Byte) (ha : a + vs.length ≤ s.cfg.slots) (hc : s.constructed = true) (hb : s.busy = false) :
      Effect s (State.answer { s with chan := s.chan.writeList a vs } .nothing)
  | transmit (hv : s.cfg.variant = .P) (hc : s.constructed = true) (hb : s.busy = false) : Effect s (s.startRun .chan)
  | writeAll (cs : List Colour) (hv : s.cfg.variant = .S) (hc : s.constructed = true) (hb : s.busy = false)
      (hf : cs ≠ [] → cs.length ≤ s.cfg.n ∧ 12 * cs.length ≤ s.cfg.encCap) :
      Effect s ((State.filled { s with cursor := 0 } 0 cs).startRun .enc)
  | seqRun (p : List Byte) (hb : s.busy = false) : Effect s (s.startRun (.given p))

theorem State.readRaw_next {s t : State} {idx : Nat} (h : s.readRaw idx = .next t) : Effect s t := by
  obtain ⟨bs, -, h⟩ := orFault_next h
  obtain rfl : s.answer (.byte (bs.headD 0)) = t := by simpa using h
  exact .ended (.returned (.byte (bs.headD 0))) (by simp)

theorem State.readColour_next {s t : State} {v : Variant} {i : Nat} (h : s.readColour v i = .next t) : Effect s t := by
  obtain ⟨u, -, h⟩ := orFault_next h
  obtain rfl : s.answer (.colour (s.colourAt v i)) = t := by simpa using h
  exact .ended (.returned (.colour (s.colourAt v i))) (by simp)

/-- A guarded command: its refusal is an effect, so it remains to look at its body. -/
theorem State.guarded_effect {s t : State} {v : Variant} {b : Bool} {r : Result} (h : s.guarded v b r = .next t)
    (hr : s.cfg.variant = v → (b = true → s.constructed = true) → s.busy = false → r = .next t → Effect s t) :
    Effect s t := by
  rcases State.guarded_next h with ⟨why, rfl⟩ | ⟨h1, h2, h3, h4⟩
  · exact .ended (.refused why) (by simp)
  · exact hr h1 h2 h3 h4

/-- Every meaning but the two transceiver operations, in one lemma. -/
theorem exec_next {i : Instr} {s t : State} (h : exec i s = .next t) :
    Effect s t ∨ (∃ b, i = .xcvrSend b ∧ s.transceive (.send b) = .next t) ∨
      (i = .xcvrRecv ∧ s.transceive .recv = .next t) := by
  cases i with
  | pConstruct =>
    refine .inl (State.guarded_effect h fun hv _ hb hr => ?_)
    obtain rfl : s.zeroChan.answer .nothing = t := by simpa using hr
    exact .pConstruct hv hb
  | pReadRaw idx => exact .inl (State.guarded_effect h fun _ _ _ hr => State.readRaw_next hr)
  | pReadColor px => exact .inl (State.guarded_effect h fun _ _ _ hr => State.readColour_next hr)
  | pSetColor px c =>
    refine .inl (State.guarded_effect h fun _ hc hb hr => ?_)
    obtain ⟨_, -, hr⟩ := orFault_next hr
    obtain ⟨s', hs, hr⟩ := orFault_next hr
    obtain ⟨ha, rfl⟩ := State.memWrite_eq_ok hs
    obtain rfl := Host.Outcome.next.inj hr
    exact .stored _ _ ha (hc rfl) hb
  | pTransmit =>
    refine .inl (State.guarded_effect h fun hv hc hb hr => ?_)
    obtain rfl : s.startRun .chan = t := by simpa using hr
    exact .transmit hv (hc rfl) hb
  | sConstruct =>
    refine .inl (State.guarded_effect h fun hv _ hb hr => ?_)
    obtain rfl : s.zeroChan.zeroEnc.answer .nothing = t := by simpa using hr
    exact .sConstruct hv hb
  | sReadRaw idx => exact .inl (State.guarded_effect h fun _ _ _ hr => State.readRaw_next hr)
  | sWriteRaw idx v =>
    refine .inl (State.guarded_effect h fun _ hc hb hr => ?_)
    obtain ⟨s', hs, hr⟩ := orFault_next hr
    obtain ⟨ha, rfl⟩ := State.memWrite_eq_ok hs
    obtain rfl := Host.Outcome.next.inj hr
    exact .stored _ _ ha (hc rfl) hb
  | sReadColor px => exact .inl (State.guarded_effect h fun _ _ _ hr => State.readColour_next hr)
  | sWriteAll cs =>
    refine .inl (State.guarded_effect h fun hv hc hb hr => ?_)
    obtain ⟨s', hs, hr⟩ := orFault_next hr
    obtain ⟨rfl, hf⟩ := State.fill_eq_ok hs
    obtain rfl := Host.Outcome.next.inj hr
    exact .writeAll cs hv (hc rfl) hb (by simpa using hf)
  | reservedOp w => exact .inl (Host.Outcome.next.inj h ▸ .ended _ (by simp))
  | wave00 => exact .inl (Host.Outcome.next.inj h ▸ .ended _ (by simp))
  | wave01 => exact .inl (Host.Outcome.next.inj h ▸ .ended _ (by simp))
  | wave10 => exact .inl (Host.Outcome.next.inj h ▸ .ended _ (by simp))
  | wave11 => exact .inl (Host.Outcome.next.inj h ▸ .ended _ (by simp))
  | wave a b => exact .inl (Host.Outcome.next.inj h ▸ .ended _ (by simp))
  | encodeChan c => exact .inl (Host.Outcome.next.inj h ▸ .ended _ (by simp))
  | xcvrSend b => exact .inr (.inl ⟨b, rfl, h⟩)
  | xcvrRecv => exact .inr (.inr ⟨rfl, h⟩)
  | seqRun p =>
    left
    have h' : execSeqRun p s = .next t := h
    unfold execSeqRun at h'
    split at h'
    · cases h'
    · rename_i hb
      obtain rfl := Host.Outcome.next.inj h'
      exact .seqRun p (by simpa using hb)

end Sys2Proof.Machine
end

