-- ==== Sys2Proof/Laws/Run.lean ====
section
/-! SUPPORT. A transmission as a run of steps, one lemma per way an operation can be answered. -/

namespace Sys2Proof.Machine

/-- The next state of a result, gone on with. -/
theorem State.runs_succ (s : State) (k : Nat) : s.runs (k + 1) =
    match step s with
    | .next s' => s'.runs k
    | .fault r => .fault r
    | .refused r => .refused r := by
  cases h : step s <;> simp [State.runs, Host.Core.run, Sys2Proof.core, h]

@[simp] theorem State.runs_zero (s : State) : s.runs 0 = .next s := rfl

theorem State.runs_step {s s' : State} {k : Nat} (h : step s = .next s') : s.runs (k + 1) = s'.runs k := by
  rw [State.runs_succ, h]

theorem State.runs_fault {s : State} {k : Nat} {f : Fault} (h : step s = .fault f) : s.runs (k + 1) = .fault f := by
  rw [State.runs_succ, h]

/-- Two runs in a row. -/
theorem State.runs_add {s t : State} {j k : Nat} (h : s.runs j = .next t) : s.runs (j + k) = t.runs k := by
  induction j generalizing s with
  | zero => rw [State.runs_zero] at h; obtain rfl := Host.Outcome.next.inj h; rw [Nat.zero_add]
  | succ j ih =>
    rw [Nat.add_right_comm]
    rw [State.runs_succ] at h ⊢
    cases hs : step s with
    | next s' => rw [hs] at h; exact ih h
    | fault f => rw [hs] at h; cases h
    | refused r => rw [hs] at h; cases h

/-- A machine at rest stays as it is. -/
theorem State.runs_rest {s : State} {k : Nat} (h : step s = .next s) : s.runs k = .next s := by
  induction k with
  | zero => rfl
  | succ k ih => rw [State.runs_step h, ih]

theorem State.step_rest {s : State} (hr : s.run = none) (hq : s.seq = .idle) (hu : s.units = []) (hc : s.cmds = []) :
    step s = .next s := by
  have hb : s.busy = false := by simp [Block.busy, hr, hq]
  exact step_nothing (State.fetch_idle hb hu hc)

/-- The machine in a transmission from `src`, before operation `j`. -/
structure State.at (s : State) (src : Source) (j : Nat) : Prop where
  run : s.run = some src
  lt : j < s.cfg.opCount (s.payloadLen src)
  seq : s.seq = Seq.ofIndex s.cfg (s.payloadLen src) j

namespace State.at

variable {s : State} {src : Source} {j : Nat}

theorem issues (h : s.at src j) : s.issues = (opList s.cfg (s.payload src))[j]? := Block.issues_ofIndex h.run h.lt h.seq

theorem op (h : s.at src j) : ∃ op, (opList s.cfg (s.payload src))[j]? = some op ∧ s.issues = some op := by
  have hl : j < (opList s.cfg (s.payload src)).length := by
    rw [opList_length, Block.payload_length]; exact h.lt
  exact ⟨_, List.getElem?_eq_getElem hl, by rw [h.issues, List.getElem?_eq_getElem hl]⟩

theorem step_eq {op : XcvrOp} (h : s.at src j) (ho : s.issues = some op) : step s = s.transceive op :=
  step_operation (Block.busy_of_run h.run) ho

/-- Answered `ok`, not the last operation. -/
theorem step_ok {op : XcvrOp} {v : Byte} (h : s.at src j) (ho : s.issues = some op) (hv : s.xcvr.answer = .ok v)
    (hj : j + 1 < s.cfg.opCount (s.payloadLen src)) :
    step s = .next { s with
      seq := Seq.ofIndex s.cfg (s.payloadLen src) (j + 1)
      trace := s.trace ++ [{ op := op, reply := okReply op v }]
      xcvr := s.xcvr.answered } := by
  rw [h.step_eq ho, State.transceive_issued ho, hv]
  simp only [Block.respond, orFault]
  have hr : (s.logged op (okReply op v)).run = some src := h.run
  have hn : (s.logged op (okReply op v)).nextSeq = Seq.ofIndex s.cfg (s.payloadLen src) (j + 1) := by
    rw [← Seq.settle_afterOk_ofIndex _ _ _ hj, ← h.seq]
    unfold Block.nextSeq
    rw [hr]
    simp only [Block.logged_cfg, Block.logged_seq]
    rw [Block.payloadLen_congr (s := s.toBlock) (t := s.logged op (okReply op v)) src rfl rfl]
  rw [Block.advance_other hr (by
    intro c hh
    rw [Block.logged_seq, h.seq]
    exact Seq.ofIndex_ne_draining _ _ _ hj c hh), hn]
  rfl

/-- Answered `ok`, the final drain. -/
theorem step_last {op : XcvrOp} {v : Byte} (h : s.at src j) (ho : s.issues = some op) (hv : s.xcvr.answer = .ok v)
    (hj : j + 1 = s.cfg.opCount (s.payloadLen src)) :
    step s = .next { s with
      seq := .idle, run := none, last := .returned .ok
      trace := s.trace ++ [{ op := op, reply := okReply op v }]
      xcvr := s.xcvr.answered } := by
  rw [h.step_eq ho, State.transceive_issued ho, hv]
  simp only [Block.respond, orFault]
  have hr : (s.logged op (okReply op v)).run = some src := h.run
  rw [Block.advance_draining (c := 0) (h := .rx) hr (by
    rw [Block.logged_seq, h.seq, show j = s.cfg.opCount (s.payloadLen src) - 1 by omega]
    exact Seq.ofIndex_last _ _)]
  rfl

/-- Answered `err(e)`. -/
theorem step_err {op : XcvrOp} {e : ChannelError} (h : s.at src j) (ho : s.issues = some op) (he : s.xcvr.answer = .err e) :
    step s = .next { s with
      seq := .idle, run := none, last := .returned (.err e)
      trace := s.trace ++ [{ op := op, reply := .err e }]
      xcvr := s.xcvr.answered } := by
  rw [h.step_eq ho, State.transceive_issued ho, he]
  rfl

/-- Never answered. -/
theorem step_never {op : XcvrOp} (h : s.at src j) (ho : s.issues = some op) (he : s.xcvr.answer = .never) :
    step s = .fault .stalled := by
  rw [h.step_eq ho, State.transceive_issued ho, he]
  rfl

end State.at

theorem State.at_startRun (s : State) (src : Source) : (s.startRun src).at src 0 := by
  refine ⟨rfl, ?_, rfl⟩
  unfold Config.opCount; omega

/-- While the operations are answered `ok`, the position, the trace and the transceiver move, and nothing else does. -/
theorem State.runs_ok {s : State} {src : Source} {j : Nat} {vs : List Byte} {y : Xcvr} (h : s.at src j)
    (hj : j + vs.length < s.cfg.opCount (s.payloadLen src)) (hx : s.xcvr.answersOk vs y) :
    ∃ u, s.runs vs.length = .next u ∧ u.at src (j + vs.length) ∧
      u = { s with
        seq := Seq.ofIndex s.cfg (s.payloadLen src) (j + vs.length)
        trace := s.trace ++ okTrace ((opList s.cfg (s.payload src)).drop j) vs
        xcvr := y } := by
  induction vs generalizing s j with
  | nil =>
    obtain rfl : y = s.xcvr := hx
    refine ⟨s, rfl, h, ?_⟩
    have hq := h.seq
    simp [okTrace, ← hq]
  | cons v vs ih =>
    simp only [List.length_cons] at hj ⊢
    obtain ⟨ha, hx⟩ := hx
    obtain ⟨op, hop, ho⟩ := h.op
    have hstep := h.step_ok ho ha (by omega)
    rw [State.runs_step hstep]
    obtain ⟨s', hs'⟩ : ∃ s' : State, s' = { s with
        seq := Seq.ofIndex s.cfg (s.payloadLen src) (j + 1)
        trace := s.trace ++ [{ op := op, reply := okReply op v }]
        xcvr := s.xcvr.answered } := ⟨_, rfl⟩
    rw [← hs']
    have hcfg : s'.cfg = s.cfg := by rw [hs']
    have hrun : s'.run = some src := by rw [hs']; exact h.run
    have hseq : s'.seq = Seq.ofIndex s.cfg (s.payloadLen src) (j + 1) := by rw [hs']
    have hx' : s'.xcvr.answersOk vs y := by rw [hs']; exact hx
    have hlen : s'.payloadLen src = s.payloadLen src := Block.payloadLen_congr src hcfg (by rw [hs'])
    have hpay : s'.payload src = s.payload src :=
      Block.payload_congr src hcfg (by rw [hs']) (by rw [hs']) (by rw [hs'])
    obtain ⟨u, h1, h2, h4⟩ := ih (j := j + 1) (s := s')
      ⟨hrun, by rw [hcfg, hlen]; omega, by rw [hcfg, hlen, hseq]⟩ (by rw [hcfg, hlen]; omega) hx'
    refine ⟨u, h1, by rw [show j + (vs.length + 1) = j + 1 + vs.length by omega]; exact h2, ?_⟩
    rw [h4, hcfg, hlen, hpay]
    have hdrop : (opList s.cfg (s.payload src)).drop j = op :: (opList s.cfg (s.payload src)).drop (j + 1) := by
      obtain ⟨hl, he⟩ := List.getElem?_eq_some_iff.mp hop
      rw [List.drop_eq_getElem_cons hl, he]
    subst hs'
    simp only [hdrop, okTrace, List.zipWith_cons_cons, okEvent, List.append_assoc, List.singleton_append,
      show j + 1 + vs.length = j + (vs.length + 1) by omega]

/-- Two groups of answers in a row. -/
theorem Xcvr.answersOk_append {x y : Xcvr} {vs ws : List Byte} :
    x.answersOk (vs ++ ws) y ↔ ∃ z, x.answersOk vs z ∧ z.answersOk ws y := by
  induction vs generalizing x with
  | nil => simp [Xcvr.answersOk]
  | cons v vs ih => simp [Xcvr.answersOk, ih, and_assoc]

/-! ### Transceivers -/

/-- A transceiver with a list of `ok` answers ahead of it. -/
theorem Xcvr.answersOk_script (vs : List Byte) (x : Xcvr) :
    Xcvr.answersOk { x with script := vs.map Answer.ok ++ x.script } vs x := by
  induction vs with
  | nil => rfl
  | cons v vs ih => exact ⟨rfl, ih⟩

/-- `AlwaysOk(v)` answers `ok` as often as it is asked, and stays the same. -/
theorem Xcvr.alwaysOk_answersOk (v : Byte) (l : Link) (k : Nat) :
    (Xcvr.alwaysOk v l).answersOk (List.replicate k v) (Xcvr.alwaysOk v l) := by
  induction k with
  | zero => rfl
  | succ k ih => exact ⟨rfl, ih⟩

/-- `FailAt(j, e)` answers `ok` `j` times, and is then about to fail. -/
theorem Xcvr.failAt_answersOk (j : Nat) (e : ChannelError) (after : Xcvr) :
    (Xcvr.failAt j e after).answersOk (List.replicate j 0x00) (Xcvr.failAt 0 e after) := by
  induction j with
  | zero => rfl
  | succ j ih => exact ⟨rfl, ih⟩

@[simp] theorem Xcvr.failAt_zero_answer (e : ChannelError) (after : Xcvr) : (Xcvr.failAt 0 e after).answer = .err e := rfl
@[simp] theorem Xcvr.failAt_zero_answered (e : ChannelError) (after : Xcvr) : (Xcvr.failAt 0 e after).answered = after := rfl

end Sys2Proof.Machine
end

