-- ==== Sys2Proof/Laws/Flags.lean ====
section
/-! SUPPORT. The ghost counts: which operations of the list are sends, and `inflight` of a trace answered `ok` throughout. -/

namespace Sys2Proof.Machine

@[simp] theorem isSend_send (b : Byte) : isSend (.send b) = true := rfl
@[simp] theorem isSend_recv : isSend .recv = false := rfl

theorem countP_cyclesOf (p : List Byte) :
    (cyclesOf p).countP isSend = p.length ∧ (cyclesOf p).countP (fun op => !isSend op) = p.length := by
  induction p with
  | nil => exact ⟨rfl, rfl⟩
  | cons b bs ih =>
    simp only [cyclesOf, List.countP_cons, ih.1, ih.2, isSend_send, isSend_recv, List.length_cons]
    exact ⟨rfl, rfl⟩

theorem sentBytes_append (a b : List XcvrOp) : sentBytes (a ++ b) = sentBytes a ++ sentBytes b := by
  induction a with
  | nil => rfl
  | cons x xs ih => cases x <;> simp [sentBytes, ih]

theorem sentBytes_cyclesOf (q : List Byte) : sentBytes (cyclesOf q) = q := by
  induction q with
  | nil => rfl
  | cons x xs ih => simp [cyclesOf, sentBytes, ih]

/-- The operation at an index is a `SEND` at the lead byte and at every odd index but the last. -/
theorem isSend_opList_getElem? (cfg : Config) (p : List Byte) (j : Nat) (hj : j < cfg.opCount p.length) :
    (opList cfg p)[j]?.map isSend = some (decide (j = 0 ∨ (j % 2 = 1 ∧ j ≠ cfg.opCount p.length - 1))) := by
  rw [opList_getElem? _ _ _ hj]
  have T : cfg.opCount p.length = 2 * (1 + cfg.leadCycles + p.length + cfg.trailCycles) := rfl
  by_cases h0 : j = 0
  · simp [h0, isSend]
  rw [if_neg h0]
  by_cases h1 : j - 1 < 2 * cfg.leadCycles
  · rw [if_pos h1]
    by_cases hp : (j - 1) % 2 = 0
    · rw [if_pos hp]; simp [isSend]; omega
    · rw [if_neg hp]; simp [isSend]; omega
  rw [if_neg h1]
  by_cases h2 : j - 1 - 2 * cfg.leadCycles < 2 * p.length
  · rw [if_pos h2]
    by_cases hp : (j - 1 - 2 * cfg.leadCycles) % 2 = 0
    · rw [if_pos hp]; simp [isSend]; omega
    · rw [if_neg hp]; simp [isSend]; omega
  rw [if_neg h2]
  by_cases h3 : j - 1 - 2 * cfg.leadCycles - 2 * p.length < 2 * cfg.trailCycles
  · rw [if_pos h3]
    by_cases hp : (j - 1 - 2 * cfg.leadCycles - 2 * p.length) % 2 = 0
    · rw [if_pos hp]; simp [isSend]; omega
    · rw [if_neg hp]; simp [isSend]; omega
  · rw [if_neg h3]; simp [isSend]; omega

theorem inflightOf_append (a b : List Event) : inflightOf (a ++ b) = inflightOf a + inflightOf b := by simp [inflightOf]

theorem inflightOf_singleton (e : Event) : inflightOf [e] = inflightStep e := by simp [inflightOf]

/-- An event answered `ok` counts one up or one down. -/
theorem inflightStep_isOk {e : Event} (h : e.reply.isOk = true) : inflightStep e = if isSend e.op then 1 else -1 := by
  simp [inflightStep, h]

theorem okReply_isOk (op : XcvrOp) (v : Byte) : (okReply op v).isOk = true := by cases op <;> rfl

/-- `inflight` when `j` of `total` operations have been answered `ok` (43_sequencer.md R192). -/
def inflightAt (total j : Nat) : Int :=
  if j = 0 then 0 else if j = total then 0 else if j = total - 1 then 1 else if j % 2 = 1 then 1 else 2

/-- The count over the first `j` operations. -/
theorem inflightOf_take (cfg : Config) (p : List Byte) {t : List Event} (hk : ∀ e ∈ t, e.reply.isOk = true)
    (ht : opsOf t = (opList cfg p).take t.length) (hl : t.length ≤ cfg.opCount p.length) :
    inflightOf t = inflightAt (cfg.opCount p.length) t.length := by
  induction t using List.reverseRecOn with
  | nil => rfl
  | append_singleton t e ih =>
    simp only [List.length_append, List.length_singleton] at hl ht ⊢
    have hj : t.length < cfg.opCount p.length := by omega
    have hop : (opList cfg p)[t.length]? = some e.op := by
      have h := congrArg (fun l => l[t.length]?) ht
      rw [List.getElem?_take, if_pos (by omega)] at h
      rw [← h]; simp [opsOf]
    have hpre : opsOf t = (opList cfg p).take t.length := by
      have h := congrArg (List.take t.length) ht
      rw [List.take_take, Nat.min_eq_left (by omega)] at h
      rw [← h]; simp [opsOf]
    have hs := isSend_opList_getElem? cfg p _ hj
    rw [hop, Option.map_some] at hs
    have T : cfg.opCount p.length = 2 * (1 + cfg.leadCycles + p.length + cfg.trailCycles) := rfl
    rw [inflightOf_append, inflightOf_singleton, inflightStep_isOk (hk e (by simp)), Option.some.inj hs,
      ih (fun e' he' => hk e' (by simp [he'])) hpre (by omega)]
    simp only [inflightAt, decide_eq_true_eq]
    split_ifs <;> first | contradiction | omega

theorem okTrace_append_singleton {ops : List XcvrOp} {vs : List Byte} {op : XcvrOp} {v : Byte}
    (h : ops[vs.length]? = some op) : okTrace ops (vs ++ [v]) = okTrace ops vs ++ [okEvent op v] := by
  induction vs generalizing ops with
  | nil =>
    cases ops with
    | nil => cases h
    | cons o os => simp at h; subst h; simp [okTrace]
  | cons w ws ih =>
    cases ops with
    | nil => cases h
    | cons o os =>
      simp only [List.length_cons, List.getElem?_cons_succ] at h
      simpa [okTrace] using ih h

theorem okTrace_length {ops : List XcvrOp} {vs : List Byte} (h : vs.length ≤ ops.length) :
    (okTrace ops vs).length = vs.length := by simp [okTrace, h]

theorem opsOf_okTrace {ops : List XcvrOp} {vs : List Byte} (h : vs.length ≤ ops.length) :
    opsOf (okTrace ops vs) = ops.take vs.length := by
  induction vs generalizing ops with
  | nil => simp [okTrace, opsOf]
  | cons v vs ih =>
    cases ops with
    | nil => simp at h
    | cons o os =>
      simp only [List.length_cons, Nat.add_le_add_iff_right] at h
      have := ih h
      simp only [okTrace, opsOf, List.zipWith_cons_cons, List.map_cons, List.length_cons, List.take_succ_cons] at this ⊢
      rw [this]; rfl

theorem okTrace_isOk {ops : List XcvrOp} {vs : List Byte} {e : Event} (h : e ∈ okTrace ops vs) : e.reply.isOk = true := by
  induction vs generalizing ops with
  | nil => simp [okTrace] at h
  | cons v vs ih =>
    cases ops with
    | nil => simp [okTrace] at h
    | cons o os =>
      simp only [okTrace, List.zipWith_cons_cons, List.mem_cons] at h
      rcases h with rfl | h
      · exact okReply_isOk _ _
      · exact ih h

/-- `inflight` of the operation list answered `ok` so far. -/
theorem inflightOf_okTrace (cfg : Config) (p : List Byte) {vs : List Byte} (h : vs.length ≤ cfg.opCount p.length) :
    inflightOf (okTrace (opList cfg p) vs) = inflightAt (cfg.opCount p.length) vs.length := by
  have hl : vs.length ≤ (opList cfg p).length := by rwa [opList_length]
  have hlen := okTrace_length hl
  rw [inflightOf_take cfg p (fun e he => okTrace_isOk he) (by rw [opsOf_okTrace hl, hlen]) (by rw [hlen]; exact h), hlen]

end Sys2Proof.Machine
end

