-- ==== Sys2Proof/Laws/PerInstr.lean ====
section
/-! SUPPORT. The families of LAWS.json, one lemma per constructor of `Instr`. -/

namespace Sys2Proof.Laws.RoundTrip

/-- The words of a well-formed instruction decode to it in every instance: to the row of the instance's variant where the two
variants share the words, and the general row `WAVE` to the row of its byte. -/
def Statement (i : Instr) : Prop :=
  i.wellFormed = true → ∀ cfg : Config, decode cfg (encode cfg i) = .ok (i.asRead cfg.variant)

theorem pConstruct : Statement .pConstruct := by
  intro _ cfg
  cases h : cfg.variant <;>
    simp [decode, encode, decodeCmd, isReserved, colourCount_cmdWord, Instr.asRead, h]

theorem sConstruct : Statement .sConstruct := by
  intro _ cfg
  cases h : cfg.variant <;>
    simp [decode, encode, decodeCmd, isReserved, colourCount_cmdWord, Instr.asRead, h]

theorem pReadRaw (idx : Nat) : Statement (.pReadRaw idx) := by
  intro hw cfg
  have hi := ofNat_toNat_of_fits hw
  cases h : cfg.variant <;>
    simp [decode, encode, decodeCmd, isReserved, colourCount_cmdWord, Instr.asRead, h, hi]

theorem sReadRaw (idx : Nat) : Statement (.sReadRaw idx) := by
  intro hw cfg
  have hi := ofNat_toNat_of_fits hw
  cases h : cfg.variant <;>
    simp [decode, encode, decodeCmd, isReserved, colourCount_cmdWord, Instr.asRead, h, hi]

theorem pReadColor (i : Nat) : Statement (.pReadColor i) := by
  intro hw cfg
  have hi := ofNat_toNat_of_fits hw
  cases h : cfg.variant <;>
    simp [decode, encode, decodeCmd, isReserved, colourCount_cmdWord, Instr.asRead, h, hi]

theorem sReadColor (i : Nat) : Statement (.sReadColor i) := by
  intro hw cfg
  have hi := ofNat_toNat_of_fits hw
  cases h : cfg.variant <;>
    simp [decode, encode, decodeCmd, isReserved, colourCount_cmdWord, Instr.asRead, h, hi]

theorem pSetColor (i : Nat) (c : Colour) : Statement (.pSetColor i c) := by
  intro hw cfg
  have hi := ofNat_toNat_of_fits hw
  simp [decode, encode, decodeCmd, isReserved, colourCount_cmdWord, Instr.asRead, hi]

theorem pTransmit : Statement .pTransmit := by
  intro _ cfg
  simp [decode, encode, decodeCmd, isReserved, colourCount_cmdWord, Instr.asRead]

theorem sWriteRaw (idx : Nat) (v : Byte) : Statement (.sWriteRaw idx v) := by
  intro hw cfg
  have hi := ofNat_toNat_of_fits hw
  obtain ⟨h1, h2⟩ := byte_in_data v
  simp [decode, encode, decodeCmd, isReserved, colourCount_cmdWord, Instr.asRead, hi, h1, h2]

theorem sWriteAll (cs : List Colour) : Statement (.sWriteAll cs) := by
  intro hw cfg
  have hi := ofNat_toNat_of_fits hw
  simp [decode, encode, decodeCmd, isReserved, colourCount_cmdWord, Instr.asRead, hi, Function.comp_def]

theorem reservedOp (w : CmdWord) : Statement (.reservedOp w) := by
  intro hw cfg
  have hr : isReserved w = true := hw
  simp [decode, encode, decodeCmd, Instr.asRead, hr]

theorem wave00 : Statement .wave00 := fun _ _ => rfl

theorem wave01 : Statement .wave01 := fun _ _ => rfl

theorem wave10 : Statement .wave10 := fun _ _ => rfl

theorem wave11 : Statement .wave11 := fun _ _ => rfl

theorem wave (h l : Bool) : Statement (.wave h l) := by
  intro _ cfg
  cases h <;> cases l <;> rfl

theorem encodeChan (c : Byte) : Statement (.encodeChan c) := by
  intro _ cfg
  simp [decode, encode, decodeChan4, chan4Source_chan4, Instr.asRead]

theorem xcvrSend (b : Byte) : Statement (.xcvrSend b) := fun _ _ => decodeXcvr_xcvrWord (.send b)

theorem xcvrRecv : Statement .xcvrRecv := fun _ _ => decodeXcvr_xcvrWord .recv

theorem seqRun (p : List Byte) : Statement (.seqRun p) := by
  intro hw cfg
  have hp : p.all Encoder.isWave = true := hw
  simp only [decode, encode, decodeFrame, framePayload_frameBytes, Instr.asRead, hp, and_self, if_true]

end Sys2Proof.Laws.RoundTrip
end

