-- ==== Sys2Proof/Tests/Slice0.lean ====
section
/-! SUPPORT. Tests, their expected results from spec/95_test_vectors.md (V..) and the rules named; and a witness for the
hypotheses of each obligation that has any. -/

namespace Sys2Proof.Tests

open Sys2Proof.Machine

/-! ### Helpers -/

/-- The next state, if there is one. -/
def nextOf : Result → Option State
  | .next s => some s
  | .fault _ => none
  | .refused _ => none

/-- The fault, if there is one. -/
def faultOf : Result → Option Fault
  | .next _ => none
  | .fault f => some f
  | .refused _ => none

/-- The refusal, if there is one. -/
def refusalOf : Result → Option Refusal
  | .next _ => none
  | .fault _ => none
  | .refused r => some r

/-- What a command left in `chan`, and how it ended. -/
def chanAndEnd (r : Result) : Option (Memory × Ended) := (nextOf r).map fun t => (t.chan, t.last)

/-- How a command ended. -/
def ended (r : Result) : Option Ended := (nextOf r).map (·.last)

/-- A constructed store of `n` pixels, with short pads. -/
def store (v : Variant) (n : Nat) (chan : Memory) : State :=
  { State.reset with
    cfg := { variant := v, n := n, idlePad := false, leadPadLen := 2, trailPadLen := 2, encCap := 12 * n }
    chan := chan }

/-- V30 after row 4: two pixels of variant P. -/
def v30 : State := store .P 2 [(0, 0x22), (1, 0x11), (2, 0x33), (4, 0xFF), (5, 0x80)]

/-- V31 after row 3: two pixels of variant S. -/
def v31 : State := store .S 2 [(0, 0x7F), (4, 0x01)]

/-- The same machine before construction. -/
def raw (s : State) : State := { s with constructed := false }

/-- The same machine in a transmission of a given payload, at a position. -/
def inRun (s : State) (p : List Byte) (q : Seq) (a : Answer) : State :=
  { s with run := some (.given p), seq := q, last := .running, xcvr := { s.xcvr with script := [a] } }

/-! ### Words, written out from 30_encoding.md -/

def cfgP : Config := Config.ofStraps .P 3 false
def cfgS : Config := Config.ofStraps .S 3 false

/-- R97: op 0, all else 0. -/
theorem test_decode_pConstruct : (decode cfgP (.cmd 0b0000_0000_0000000000000000_000000000000000000000000 [])).toOption =
    some .pConstruct := by decide
theorem test_decode_sConstruct : (decode cfgS (.cmd 0b0000_0000_0000000000000000_000000000000000000000000 [])).toOption =
    some .sConstruct := by decide
/-- R97: op 1, idx the slot. -/
theorem test_decode_pReadRaw : (decode cfgP (.cmd 0b0001_0000_1111111111111111_000000000000000000000000 [])).toOption =
    some (.pReadRaw 65535) := by decide
theorem test_decode_sReadRaw : (decode cfgS (.cmd 0b0001_0000_0000000000000110_000000000000000000000000 [])).toOption =
    some (.sReadRaw 6) := by decide
/-- R97: op 2, idx the slot, the byte in data[7:0]. -/
theorem test_decode_sWriteRaw : (decode cfgS (.cmd 0b0010_0000_0000000000000101_0000000000000000_01111111 [])).toOption =
    some (.sWriteRaw 5 0x7F) := by decide
/-- R97: op 3, idx the pixel. -/
theorem test_decode_pReadColor : (decode cfgP (.cmd 0b0011_0000_0000000000000001_000000000000000000000000 [])).toOption =
    some (.pReadColor 1) := by decide
theorem test_decode_sReadColor : (decode cfgS (.cmd 0b0011_0000_0000000000000001_000000000000000000000000 [])).toOption =
    some (.sReadColor 1) := by decide
/-- R97 and R89: op 4, data red, green, blue. -/
theorem test_decode_pSetColor : (decode cfgP (.cmd 0b0100_0000_0000000000000001_11111111_00000001_10000000 [])).toOption =
    some (.pSetColor 1 { r := 0xFF, g := 0x01, b := 0x80 }) := by decide
/-- R97: op 5. -/
theorem test_decode_pTransmit : (decode cfgP (.cmd 0b0101_0000_0000000000000000_000000000000000000000000 [])).toOption =
    some .pTransmit := by decide
/-- R88: op 6, idx the colour count, then the colour words. -/
theorem test_decode_sWriteAll :
    (decode cfgS (.cmd 0b0110_0000_0000000000000001_000000000000000000000000 [0b00010010_00110100_01010110])).toOption =
      some (.sWriteAll [{ r := 0x12, g := 0x34, b := 0x56 }]) := by decide
/-- R94: `rsv` not 0, and op 7. -/
theorem test_decode_reserved_rsv : (decode cfgP (.cmd 0b0101_0001_0000000000000000_000000000000000000000000 [])).toOption =
    some (.reservedOp 0x510000000000) := by decide
theorem test_decode_reserved_op : (decode cfgP (.cmd 0b0111_0000_0000000000000000_000000000000000000000000 [])).toOption =
    some (.reservedOp 0x700000000000) := by decide
/-- R81: `1hh01ll0`. -/
theorem test_decode_wave : (decode cfgP (.wave 0b10001000)).toOption = some .wave00 ∧
    (decode cfgP (.wave 0b10001110)).toOption = some .wave01 ∧ (decode cfgP (.wave 0b11101000)).toOption = some .wave10 ∧
    (decode cfgP (.wave 0b11101110)).toOption = some .wave11 := by decide
theorem test_decode_wave_rejects_pad : (decode cfgP (.wave 0x00)).toOption = none := by decide
/-- The general row: its own words are those of the four rows (log 13). -/
theorem test_decode_wave_general : (decode cfgP (encode cfgP (.wave true false))).toOption = some .wave10 := by decide
/-- R82 and V20: `0xA5` is `E8 E8 8E 8E`. -/
theorem test_decode_encode : (decode cfgP (.chan4 0b1110_1000_1110_1000_1000_1110_1000_1110)).toOption =
    some (.encodeChan 0xA5) := by decide
theorem test_decode_encode_rejects : (decode cfgP (.chan4 0x888888A8)).toOption = none := by decide
/-- R87. -/
theorem test_decode_xcvr : (decode cfgP (.xcvr 0b0_11101110)).toOption = some (.xcvrSend 0xEE) ∧
    (decode cfgP (.xcvr 0b1_00000000)).toOption = some .xcvrRecv ∧ (decode cfgP (.xcvr 0b1_00000001)).toOption = none := by
  decide
/-- R84: lead byte, no lead pad, payload, two trailing bytes. -/
theorem test_decode_seqRun : (decode v30.cfg (.frame [0x00, 0x88, 0xEE, 0x00, 0x00])).toOption =
    some (.seqRun [0x88, 0xEE]) := by decide
theorem test_decode_seqRun_rejects : (decode v30.cfg (.frame [0x00, 0x00, 0xEE, 0x00, 0x00])).toOption = none := by decide

/-! ### The host's two functions -/

theorem test_tableWord_command : decodeTableWord 48 0x40000100FF00 = some (.pSetColor 1 { r := 0x00, g := 0xFF, b := 0x00 }) := by
  decide
theorem test_tableWord_wave : decodeTableWord 8 0xE8 = some .wave10 := by decide
theorem test_tableWord_xcvr : decodeTableWord 16 0x0EE = some (.xcvrSend 0xEE) := by decide
theorem test_fetchWord_transmit : ended (step (State.reset.withFetchWord 48 0x500000000000)) = some .running := by decide
theorem test_fetchWord_writeRaw : chanAndEnd (step (State.reset.withFetchWord 48 0x20000500007F)) =
    some ([(5, 0x7F)], .returned .nothing) := by decide
theorem test_fetchWord_send : ((nextOf (step (State.reset.withFetchWord 16 0x0EE))).map (·.trace)) =
    some [{ op := .send 0xEE, reply := .ok }] := by decide
theorem test_fetchWord_recv : ((nextOf (step (State.reset.withFetchWord 16 0x100))).map (·.trace)) =
    some [{ op := .recv, reply := .okByte 0x00 }] := by decide

/-! ### WellFormed refuses -/

theorem test_wf_pReadRaw : (Instr.pReadRaw 65536).wellFormed = false := by decide
theorem test_wf_pReadColor : (Instr.pReadColor 65536).wellFormed = false := by decide
theorem test_wf_pSetColor : (Instr.pSetColor 65536 { r := 0, g := 0, b := 0 }).wellFormed = false := by decide
theorem test_wf_sReadRaw : (Instr.sReadRaw 65536).wellFormed = false := by decide
theorem test_wf_sWriteRaw : (Instr.sWriteRaw 65536 0).wellFormed = false := by decide
theorem test_wf_sReadColor : (Instr.sReadColor 65536).wellFormed = false := by decide
theorem test_wf_sWriteAll (cs : List Colour) (h : cs.length = 65536) : (Instr.sWriteAll cs).wellFormed = false := by
  simp [Instr.wellFormed, fitsIdx, Config.idxWidth, h]
theorem test_wf_reservedOp : (Instr.reservedOp 0x500000000000).wellFormed = false := by decide
theorem test_wf_seqRun : (Instr.seqRun [0x88, 0xA1]).wellFormed = false := by decide

/-! ### Meanings -/

/-- V30 row 10. -/
theorem test_pConstruct : chanAndEnd (exec .pConstruct v30) = some ([], .returned .nothing) := by decide
/-- V30 row 5.1 and the first fault row. -/
theorem test_pReadRaw : ended (exec (.pReadRaw 1) v30) = some (.returned (.byte 0x11)) := by decide
theorem test_pReadRaw_out : faultOf (exec (.pReadRaw 6) v30) = some .slotIndexOutOfRange := by decide
/-- V30 row 6. -/
theorem test_pReadColor : ended (exec (.pReadColor 1) v30) = some (.returned (.colour { r := 0xFF, g := 0x00, b := 0x80 })) := by
  decide
theorem test_pReadColor_out : faultOf (exec (.pReadColor 2) v30) = some .pixelIndexOutOfRange := by decide
/-- V30 row 7: `22 11 33 02 01 03`. -/
theorem test_pSetColor : chanAndEnd (exec (.pSetColor 1 { r := 0x01, g := 0x02, b := 0x03 }) v30) =
    some ([(0, 0x22), (1, 0x11), (2, 0x33), (3, 0x02), (4, 0x01), (5, 0x03)], .returned .nothing) := by decide
theorem test_pSetColor_zero : chanAndEnd (exec (.pSetColor 0 { r := 0x00, g := 0x00, b := 0x00 }) v30) =
    some ([(4, 0xFF), (5, 0x80)], .returned .nothing) := by decide
/-- R124: it starts at the lead byte. -/
theorem test_pTransmit : ((nextOf (exec .pTransmit v30)).bind (·.issues)) = some (.send 0x00) := by decide
/-- V30, payload bytes 1 and 5 of row 4's store: `ENCODE(0x22) = 88 E8 88 E8`, `ENCODE(0x11) = 88 8E 88 8E`. -/
theorem test_pTransmit_payload : v30.payloadByte .chan 1 = 0xE8 ∧ v30.payloadByte .chan 5 = 0x8E := by decide

/-- R140. -/
theorem test_sConstruct : (nextOf (exec .sConstruct { v31 with enc := [(0, 0x88)], cursor := 12 })).map
    (fun t => (t.chan, t.enc, t.cursor)) = some ([], [], 0) := by decide
theorem test_sReadRaw : ended (exec (.sReadRaw 4) v31) = some (.returned (.byte 0x01)) := by decide
theorem test_sWriteRaw : chanAndEnd (exec (.sWriteRaw 0 0xFF) v31) = some ([(0, 0xFF), (4, 0x01)], .returned .nothing) := by
  decide
theorem test_sWriteRaw_out : faultOf (exec (.sWriteRaw 6 0x00) v31) = some .slotIndexOutOfRange := by decide
/-- V31 rows 4 and 5. -/
theorem test_sReadColor : ended (exec (.sReadColor 0) v31) = some (.returned (.colour { r := 0x7F, g := 0x00, b := 0x00 })) := by
  decide
theorem test_sReadColor_green :
    ended (exec (.sReadColor 1) v31) = some (.returned (.colour { r := 0x00, g := 0x01, b := 0x00 })) := by decide
/-- V31 row 6: `chan = 01 02 03 00 01 00`, `cursor = 12`, `enc = 88 88 88 E8 88 88 88 8E 88 88 88 EE`. -/
theorem test_sWriteAll : (nextOf (exec (.sWriteAll [{ r := 0x01, g := 0x02, b := 0x03 }]) v31)).map
    (fun t => (t.chan, t.enc.readList 0 12, t.cursor)) =
    some ([(0, 0x01), (1, 0x02), (2, 0x03), (4, 0x01)],
      [0x88, 0x88, 0x88, 0xE8, 0x88, 0x88, 0x88, 0x8E, 0x88, 0x88, 0x88, 0xEE], 12) := by decide
theorem test_sWriteAll_tooMany : faultOf (exec (.sWriteAll [⟨1, 2, 3⟩, ⟨1, 2, 3⟩, ⟨1, 2, 3⟩]) v31) = some .tooManyColors := by
  decide

/-- R94, before construction and in the other variant too. -/
theorem test_reservedOp : ended (exec (.reservedOp 0x700000000000) (raw v31)) = some (.refused .reservedEncoding) := by decide
/-- R95: the fault and refusal rows of V30. -/
theorem test_notInVariant : ended (exec (.sWriteRaw 0 0x7F) v30) = some (.refused .notInVariant) := by decide
/-- R96. -/
theorem test_notConstructed : ended (exec .pTransmit (raw v30)) = some (.refused .notConstructed) := by decide

/-- R102. -/
theorem test_wave00 : ended (exec .wave00 v30) = some (.returned (.waves [0b10001000])) := by decide
theorem test_wave01 : ended (exec .wave01 v30) = some (.returned (.waves [0b10001110])) := by decide
theorem test_wave10 : ended (exec .wave10 v30) = some (.returned (.waves [0b11101000])) := by decide
theorem test_wave11 : ended (exec .wave11 v30) = some (.returned (.waves [0b11101110])) := by decide
theorem test_wave : ended (exec (.wave true false) v30) = some (.returned (.waves [0xE8])) := by decide
/-- V21: `0x1B` is `88 8E E8 EE`, `0x7F` is `8E EE EE EE`. -/
theorem test_encode : ended (exec (.encodeChan 0x1B) v30) = some (.returned (.waves [0x88, 0x8E, 0xE8, 0xEE])) := by decide
theorem test_encode_top : ended (exec (.encodeChan 0x7F) v30) = some (.returned (.waves [0x8E, 0xEE, 0xEE, 0xEE])) := by decide

/-- V40, operations 0 and 3 and their `seq`. -/
theorem test_xcvrSend_lead : ((nextOf (exec (.xcvrSend 0x00) (inRun v30 [0xA1, 0xB2] .idle (.ok 0x00)))).map (·.seq)) =
    some (.pos .payloadStreaming 0 .tx) := by decide
theorem test_xcvrSend_payload :
    ((nextOf (exec (.xcvrSend 0xB2) (inRun v30 [0xA1, 0xB2] (.pos .payloadStreaming 1 .tx) (.ok 0x00)))).map (·.seq)) =
      some (.pos .payloadStreaming 1 .rx) := by decide
/-- V40, operations 4 and 9. -/
theorem test_xcvrRecv_last_payload :
    ((nextOf (exec .xcvrRecv (inRun v30 [0xA1, 0xB2] (.pos .payloadStreaming 1 .rx) (.ok 0x5A)))).map (·.seq)) =
      some (.pos .trailingPad 0 .tx) := by decide
theorem test_xcvrRecv_drain : ended (exec .xcvrRecv (inRun v30 [0xA1, 0xB2] (.pos .draining 0 .rx) (.ok 0x5A))) =
    some (.returned .ok) := by decide
/-- R190, R177. -/
theorem test_abort : (nextOf (exec .xcvrRecv (inRun v30 [0xA1] (.pos .trailingPad 1 .rx) (.err ⟨7⟩)))).map
    (fun t => (t.seq, t.run, t.last)) = some (.idle, none, .returned (.err ⟨7⟩)) := by decide
/-- V40: ten operations. -/
theorem test_seqRun : (nextOf (exec (.seqRun [0xA1, 0xB2]) v30)).map (fun t => (t.run, t.issues)) =
    some (some (.given [0xA1, 0xB2]), some (.send 0x00)) := by decide
theorem test_opList : opList v30.cfg [0xA1, 0xB2] =
    [.send 0x00, .send 0xA1, .recv, .send 0xB2, .recv, .send 0x00, .recv, .send 0x00, .recv, .recv] := by decide

/-- `.variant S`, `.pixels 2`, `.idle_pad off` of 95_test_vectors.md. -/
theorem test_configOf : Assembly.configOf [.variant .S, .pixels 2, .idlePad false] =
    some (Config.ofStraps .S 2 false) := by decide
/-- 00_scope.md section 4: `N` has no default. -/
theorem test_configOf_noDefault : Assembly.configOf [.variant .S, .idlePad false] = none := by decide
/-- R98: `led_color` is `read_color`. -/
theorem test_alias : Assembly.assemble .S .ledColor [.num 1] = some (.sReadColor 1) := by decide
theorem test_assemble_write : Assembly.assemble .S .writeRaw [.num 5, .num 0x7F] = some (.sWriteRaw 5 0x7F) := by decide

/-! ### Witnesses: a state and operands that meet the hypotheses of each obligation, per clause, at a boundary -/

theorem accepts_v30 : v30.accepts .P := ⟨rfl, rfl, rfl⟩
theorem accepts_v31 : v31.accepts .S := ⟨rfl, rfl, rfl⟩

/-- `SourceBitsGoOutMostSignificantFirst`. -/
theorem test_hyp_msbFirst : Link.atReset.msbFirst = true := rfl
/-- `EncodeIsInjective`. -/
theorem test_hyp_encodeIsInjective : Encoder.encode 0xFF = Encoder.encode 0xFF ∧ (Encoder.encode 0x01)[3]? = some 0x8E := by
  decide
/-- `ConstructZeroesTheStore`: each variant, before and after construction. -/
theorem test_hyp_construct : v30.cfg.variant = .P ∧ v30.busy = false ∧ (raw v30).busy = false ∧ v31.cfg.variant = .S ∧
    v31.busy = false ∧ (raw v31).busy = false := by decide
/-- `ConstructForgetsOldContents`. -/
theorem test_hyp_constructForgets : (raw v30).constructed = false ∧ (raw v30).cfg.variant = .P ∧
    (raw v31).constructed = false ∧ (raw v31).cfg.variant = .S := by decide
/-- `ResetLineIsConstruct`: both variants, and a running transmission. -/
theorem test_hyp_resetLine : v30.cfg.variant = .P ∧ v31.cfg.variant = .S ∧ (v30.startRun .chan).busy = true := by decide
/-- `ReadRawReturnsItsSlot`: the last slot and the first beyond it, each variant. -/
theorem test_hyp_readRaw : v30.accepts .P ∧ 5 < 3 * v30.cfg.n ∧ 3 * v30.cfg.n ≤ 6 ∧ v31.accepts .S ∧ 5 < 3 * v31.cfg.n ∧
    3 * v31.cfg.n ≤ 6 := ⟨accepts_v30, by decide, by decide, accepts_v31, by decide, by decide⟩
/-- `ReadColorUsesTheVariantsSlotOrder`: the last pixel and the first beyond it, each variant. -/
theorem test_hyp_readColor : v30.accepts .P ∧ 1 < v30.cfg.n ∧ v30.cfg.n ≤ 2 ∧ v31.accepts .S ∧ 1 < v31.cfg.n ∧ v31.cfg.n ≤ 2 :=
  ⟨accepts_v30, by decide, by decide, accepts_v31, by decide, by decide⟩
/-- `OutOfRangeIndicesFault`: at the bound of each kind of index. -/
theorem test_hyp_outOfRange : v30.accepts .P ∧ 3 * v30.cfg.n ≤ 6 ∧ v30.cfg.n ≤ 2 ∧ v31.accepts .S ∧ 3 * v31.cfg.n ≤ 6 ∧
    v31.cfg.n ≤ 2 := ⟨accepts_v30, by decide, by decide, accepts_v31, by decide, by decide⟩
/-- `SetColorWritesItsThreeSlots`. -/
theorem test_hyp_setColor : v30.accepts .P ∧ 1 < v30.cfg.n ∧ v30.chan.wf = true ∧ v30.cfg.n ≤ 2 :=
  ⟨accepts_v30, by decide, by decide, by decide⟩
/-- `WriteRawWritesItsOneSlot`. -/
theorem test_hyp_writeRaw : v31.accepts .S ∧ 5 < 3 * v31.cfg.n ∧ v31.chan.wf = true ∧ 3 * v31.cfg.n ≤ 6 :=
  ⟨accepts_v31, by decide, by decide, by decide⟩

/-- V30 after row 7. -/
def v30set : State :=
  { v30 with chan := [(0, 0x22), (1, 0x11), (2, 0x33), (3, 0x02), (4, 0x01), (5, 0x03)], last := .returned .nothing }

theorem v30_set : exec (.pSetColor 1 { r := 0x01, g := 0x02, b := 0x03 }) v30 = .next v30set := by rfl

/-- `SetThenReadColorReturnsTheColour`, with another pixel. -/
theorem test_hyp_setThenRead : v30.accepts .P ∧ v30.chan.wf = true ∧
    exec (.pSetColor 1 { r := 0x01, g := 0x02, b := 0x03 }) v30 = .next v30set ∧ v30set.accepts .P ∧
    v30set.cfg = v30set.cfg ∧ (∀ k, k < 3 → v30set.chan.read (3 * 1 + k) = v30set.chan.read (3 * 1 + k)) ∧
    0 ≠ 1 ∧ 0 < v30.cfg.n :=
  ⟨accepts_v30, by decide, v30_set, ⟨rfl, rfl, rfl⟩, rfl, fun _ _ => rfl, by decide, by decide⟩
/-- `SetColorIsIdempotent`. -/
theorem test_hyp_setIdempotent : v30.chan.wf = true ∧ v30.accepts .P ∧
    exec (.pSetColor 1 { r := 0x01, g := 0x02, b := 0x03 }) v30 = .next v30set := ⟨by decide, accepts_v30, v30_set⟩
/-- `TransmitPayloadIsTheEncodedStrip`: the last payload byte. -/
theorem test_hyp_payload : 23 < 12 * v30.cfg.n := by decide

def black : Colour := { r := 0x00, g := 0x00, b := 0x00 }

/-- `WriteAllFillsBothBuffers`: a full strip, and its last colour. -/
theorem test_hyp_writeAllFills : v31.accepts .S ∧ v31.fits [black, black] ∧ v31.chan.wf = true ∧ v31.enc.wf = true ∧
    [black, black][1]? = some black ∧ 12 * [black, black].length ≤ 24 ∧ 3 * [black, black].length ≤ 6 :=
  ⟨accepts_v31, ⟨by decide, by decide⟩, by decide, by decide, rfl, by decide, by decide⟩

/-- `FreshStoreSendsBlack` and `EmptyWriteAllSendsOnlyPadBytes`. -/
theorem test_hyp_blackAndEmpty : v30.cfg.variant = .P ∧ v30.busy = false ∧ v31.accepts .S := ⟨rfl, rfl, accepts_v31⟩

/-- The source-literal capacity of 00_scope.md R10. -/
def shortEnc : State := { v31 with cfg := { v31.cfg with encCap := 6 } }

/-- `WriteAllFaultsWhenItDoesNotFit`: one colour too many; the source-literal capacity. -/
theorem test_hyp_writeAllFaults : (v31.accepts .S ∧ v31.cfg.n < [black, black, black].length ∧ 12 * v31.cfg.n ≤ v31.cfg.encCap) ∧
    (shortEnc.accepts .S ∧ shortEnc.cfg.encCap < 12 * min [black].length shortEnc.cfg.n) :=
  ⟨⟨accepts_v31, by decide, by decide⟩, ⟨rfl, rfl, rfl⟩, by decide⟩

/-- V31 row 6 before its transmission, and a later accepting state. -/
def v31filled : State :=
  { v31 with
    chan := [(0, 0x01), (1, 0x02), (2, 0x03), (4, 0x01)]
    enc := [(0, 0x88), (1, 0x88), (2, 0x88), (3, 0xE8), (4, 0x88), (5, 0x88), (6, 0x88), (7, 0x8E), (8, 0x88), (9, 0x88),
      (10, 0x88), (11, 0xEE)]
    cursor := 12 }

theorem v31_fill : exec (.sWriteAll [{ r := 0x01, g := 0x02, b := 0x03 }]) v31 = .next (v31filled.startRun .enc) := by rfl

/-- `WriteAllThenReadColorReturnsTheColour`: a written pixel and one that is not. -/
theorem test_hyp_writeAllThenRead : v31.accepts .S ∧ v31.chan.wf = true ∧
    exec (.sWriteAll [{ r := 0x01, g := 0x02, b := 0x03 }]) v31 = .next (v31filled.startRun .enc) ∧ v31filled.accepts .S ∧
    v31filled.cfg = (v31filled.startRun .enc).cfg ∧ v31filled.chan = (v31filled.startRun .enc).chan ∧
    [({ r := 0x01, g := 0x02, b := 0x03 } : Colour)][0]? = some { r := 0x01, g := 0x02, b := 0x03 } ∧ 1 < v31.cfg.n :=
  ⟨accepts_v31, by decide, v31_fill, ⟨rfl, rfl, rfl⟩, rfl, rfl, rfl, by decide⟩
/-- `OnlyTheseCommandsChangeTheBuffers`: `chan` changes, and `enc` does. -/
theorem test_hyp_onlyTheseChange :
    (exec (.pSetColor 1 { r := 0x01, g := 0x02, b := 0x03 }) v30 = .next v30set ∧ v30set.chan ≠ v30.chan) ∧
    (exec (.sWriteAll [{ r := 0x01, g := 0x02, b := 0x03 }]) v31 = .next (v31filled.startRun .enc) ∧
      (v31filled.startRun .enc).enc ≠ v31.enc) :=
  ⟨⟨v30_set, by decide⟩, v31_fill, by decide⟩
/-- `ReservedWordsAreThoseOfTheTable`: one word of each clause, and the largest word that is not reserved. -/
theorem test_hyp_reservedWords : colourCount 0xF00000000000 = 0 ∧ colourCount 0x4F0000000000 = 0 ∧
    colourCount 0x000001000000 = 0 ∧ colourCount 0x300000000001 = 0 ∧ colourCount 0x200000000100 = 0 ∧
    colourCount 0x600000000001 = 0 ∧ colourCount 0x40FFFFFFFFFF = 0 ∧ isReserved 0xF00000000000 = true ∧
    isReserved 0x4F0000000000 = true ∧ isReserved 0x000001000000 = true ∧ isReserved 0x300000000001 = true ∧
    isReserved 0x200000000100 = true ∧ isReserved 0x600000000001 = true ∧ isReserved 0x40FFFFFFFFFF = false := by decide
/-- `RefusedCommandsChangeNothing`: the other variant; before construction. -/
theorem test_hyp_refused : (rowVariant (.sWriteAll []) = some .S ∧ v30.cfg.variant ≠ .S) ∧
    (rowVariant .pTransmit = some (raw v30).cfg.variant ∧ Instr.pTransmit ≠ .pConstruct ∧ Instr.pTransmit ≠ .sConstruct ∧
      (raw v30).constructed = false) := by decide
/-- `CommandDuringACommandFaults`. -/
theorem test_hyp_concurrent : rowVariant .pConstruct = some (v30.startRun .chan).cfg.variant ∧
    (v30.startRun .chan).constructed = true ∧ (v30.startRun .chan).busy = true := by decide
/-- `OperationListIsTheTable`: the last index of V40. -/
theorem test_hyp_opList : 9 < 2 * (1 + v30.cfg.leadCycles + [0xA1, 0xB2].length + v30.cfg.trailCycles) := by decide
/-- `EverySendIsPairedWithItsReceive`: the first paired send and the last paired receive of V40. -/
theorem test_hyp_pairing : (opList v30.cfg [0xA1, 0xB2])[1]? = some (.send 0xA1) ∧
    8 + 1 < (opList v30.cfg [0xA1, 0xB2]).length ∧ 2 < (opList v30.cfg [0xA1, 0xB2]).length ∧ (opList v30.cfg [0xA1, 0xB2])[8]? = some .recv := by decide
/-- `SendAnsweredOkAdvancesTheSequencer`: the lead byte, and a payload byte. -/
theorem test_hyp_sendOk :
    ((inRun v30 [0xA1] .idle (.ok 0)).run = some (.given [0xA1]) ∧
      (inRun v30 [0xA1] .idle (.ok 0)).issues = some (.send 0x00) ∧ (inRun v30 [0xA1] .idle (.ok 0)).xcvr.answer = .ok 0) ∧
    (inRun v30 [0xA1] (.pos .payloadStreaming 0 .tx) (.ok 0)).issues = some (.send 0xA1) := by decide
/-- `RecvAnsweredOkAdvancesTheSequencer`: each phase that receives. -/
theorem test_hyp_recvOk :
    (inRun v30 [0xA1] (.pos .optionalIdlePad 1 .rx) (.ok 1)).issues = some .recv ∧
    (inRun v30 [0xA1] (.pos .payloadStreaming 0 .rx) (.ok 1)).issues = some .recv ∧
    (inRun v30 [0xA1] (.pos .trailingPad 1 .rx) (.ok 1)).issues = some .recv ∧
    (inRun v30 [0xA1] (.pos .draining 0 .rx) (.ok 1)).issues = some .recv ∧
    (inRun v30 [0xA1] (.pos .draining 0 .rx) (.ok 1)).run = some (.given [0xA1]) ∧
    (inRun v30 [0xA1] (.pos .draining 0 .rx) (.ok 1)).xcvr.answer = .ok 1 := by decide
/-- `TransceiverErrorAbortsAtOnce`: a send and a receive. -/
theorem test_hyp_error : (inRun v30 [] .idle (.err ⟨7⟩)).xcvr.answer = .err ⟨7⟩ ∧
    (inRun v30 [] .idle (.err ⟨7⟩)).issues = some (.send 0x00) ∧
    (inRun v30 [] (.pos .draining 0 .rx) (.err ⟨7⟩)).issues = some .recv := by decide
/-- `UnansweredOrForeignOperationsStop`: a stall, and an operation when nothing is sent. -/
theorem test_hyp_unanswered : (inRun v30 [] .idle .never).issues = some (.send 0x00) ∧
    (inRun v30 [] .idle .never).xcvr.answer = .never ∧ v30.issues ≠ some .recv := by decide

/-- A store of no pixels without pads: two operations a transmission; the transceiver answers `as`. -/
def bare (v : Variant) (as : List Answer) : State :=
  { store v 0 [] with
    cfg := { variant := v, n := 0, idlePad := false, leadPadLen := 0, trailPadLen := 0, encCap := 0 }
    xcvr := { State.reset.xcvr with script := as } }

theorem accepts_bare (v : Variant) (as : List Answer) : (bare v as).accepts v := ⟨rfl, rfl, rfl⟩

/-- `SeqRunSendsItsPayloadAndReturnsOk`: one payload byte, four operations. -/
theorem test_hyp_seqRun : (bare .P [.ok 1, .ok 2, .ok 3, .ok 4]).busy = false ∧
    ([1, 2, 3, 4] : List Byte).length = (bare .P [.ok 1, .ok 2, .ok 3, .ok 4]).cfg.opCount [0x88].length ∧
    (bare .P [.ok 1, .ok 2, .ok 3, .ok 4]).xcvr.answersOk [1, 2, 3, 4] State.reset.xcvr :=
  ⟨rfl, rfl, rfl, rfl, rfl, rfl, rfl⟩
/-- `SeqRunSendsItsPayloadAndReturnsOk`, first clause: before construction too. -/
theorem test_hyp_seqRunStarts : (raw v30).busy = false := rfl
/-- `TransmitSendsTheWholeStripAndReturnsOk`: no pixel. -/
theorem test_hyp_transmit : (bare .P [.ok 1, .ok 2]).accepts .P ∧
    ([1, 2] : List Byte).length = 2 * (1 + (bare .P [.ok 1, .ok 2]).cfg.leadCycles + 12 * 0 + 0) ∧
    (bare .P [.ok 1, .ok 2]).xcvr.answersOk [1, 2] State.reset.xcvr := ⟨accepts_bare _ _, rfl, rfl, rfl, rfl⟩
/-- A store of one pixel without pads: 26 operations a transmission, all answered `ok(0x5A)`. -/
def onePixel (v : Variant) : State :=
  { store v 1 [] with
    cfg := { variant := v, n := 1, idlePad := false, leadPadLen := 0, trailPadLen := 0, encCap := 12 }
    xcvr := Xcvr.alwaysOk 0x5A Link.atReset }

/-- `TransmitSendsTheWholeStripAndReturnsOk`: one pixel. -/
theorem test_hyp_transmit_pixel : (onePixel .P).accepts .P ∧ (List.replicate 26 (0x5A : Byte)).length =
    2 * (1 + (onePixel .P).cfg.leadCycles + 12 * (onePixel .P).cfg.n + (onePixel .P).cfg.trailCycles) ∧
    (onePixel .P).xcvr.answersOk (List.replicate 26 0x5A) (onePixel .P).xcvr :=
  ⟨⟨rfl, rfl, rfl⟩, by decide, Xcvr.alwaysOk_answersOk _ _ _⟩
/-- `WriteAllSendsItsColoursAndReturnsOk`: one colour. -/
theorem test_hyp_writeAll_colour : (onePixel .S).accepts .S ∧ (onePixel .S).fits [black] ∧ (onePixel .S).chan.wf = true ∧
    (onePixel .S).enc.wf = true ∧ (List.replicate 26 (0x5A : Byte)).length =
      2 * (1 + (onePixel .S).cfg.leadCycles + 12 * [black].length + (onePixel .S).cfg.trailCycles) ∧
    (onePixel .S).xcvr.answersOk (List.replicate 26 0x5A) (onePixel .S).xcvr :=
  ⟨⟨rfl, rfl, rfl⟩, ⟨by decide, by decide⟩, rfl, rfl, by decide, Xcvr.alwaysOk_answersOk _ _ _⟩
/-- `EveryOracleIsAScript`: an operation issued; nothing at the ports. -/
theorem test_hyp_oracle : (inRun v30 [] .idle .never).issues = some (.send 0x00) ∧ v30.cmds = [] ∧ v30.units = [] := by decide
/-- `ReferenceOraclesGiveTheirEnds`: each command before each oracle, which fails at the last operation. -/
theorem test_hyp_referenceOracles :
    ((onePixel .P).accepts .P ∧ exec .pTransmit (onePixel .P) = .next ((onePixel .P).startRun .chan) ∧
      (onePixel .P).xcvr = Xcvr.alwaysOk 0x5A Link.atReset) ∧
    ((onePixel .S).accepts .S ∧ exec (.sWriteAll []) (onePixel .S) = .next ((onePixel .S).startRun .enc)) ∧
    ({ onePixel .P with xcvr := Xcvr.failAt 25 ⟨7⟩ (onePixel .P).xcvr }.accepts .P ∧
      25 < (onePixel .P).cfg.opCount ((onePixel .P).payloadLen .chan)) :=
  ⟨⟨⟨rfl, rfl, rfl⟩, rfl, rfl⟩, ⟨⟨rfl, rfl, rfl⟩, rfl⟩, ⟨rfl, rfl, rfl⟩, by decide⟩
/-- R224: `FailAt(2, e)` answers `ok(0x00)` twice, then `err(e)`, then as the transceiver after it. -/
theorem test_failAt : (Xcvr.failAt 2 ⟨7⟩ (Xcvr.alwaysOk 0x11 Link.atReset)).script = [.ok 0x00, .ok 0x00, .err ⟨7⟩] := by decide
/-- `SuccessfulRunCounts`: a run; both literal instances; a started write. -/
theorem test_hyp_counts : ([1, 2] : List Byte).length = (bare .P [.ok 1, .ok 2]).cfg.opCount 0 ∧
    (bare .P [.ok 1, .ok 2]).xcvr.answersOk [1, 2] State.reset.xcvr ∧ State.reset.cfg = Config.ofStraps .P 3 false ∧
    { State.reset with cfg := Config.ofStraps .S 1 true }.cfg = Config.ofStraps .S 1 true ∧
    exec (.sWriteAll [{ r := 0x01, g := 0x02, b := 0x03 }]) v31 = .next (v31filled.startRun .enc) ∧
    (v31filled.startRun .enc).last = .running := ⟨rfl, ⟨rfl, rfl, rfl⟩, rfl, rfl, v31_fill, rfl⟩
/-- `WriteAllSendsItsColoursAndReturnsOk`: no colours. -/
theorem test_hyp_writeAll : (bare .S [.ok 1, .ok 2]).accepts .S ∧ (bare .S [.ok 1, .ok 2]).fits [] ∧
    (bare .S [.ok 1, .ok 2]).chan.wf = true ∧ (bare .S [.ok 1, .ok 2]).enc.wf = true ∧
    ([1, 2] : List Byte).length = 2 * (1 + 0 + 12 * ([] : List Colour).length + 0) ∧
    (bare .S [.ok 1, .ok 2]).xcvr.answersOk [1, 2] State.reset.xcvr :=
  ⟨accepts_bare _ _, ⟨by decide, by decide⟩, rfl, rfl, rfl, rfl, rfl, rfl⟩
/-- `FirstErrorEndsTheTransmission`: the first operation fails, and the last one. -/
theorem test_hyp_firstError :
    (([] : List Byte).length < (bare .P [.err ⟨7⟩]).cfg.opCount 0 ∧
      (bare .P [.err ⟨7⟩]).xcvr.answersOk [] (bare .P [.err ⟨7⟩]).xcvr ∧ (bare .P [.err ⟨7⟩]).xcvr.answer = .err ⟨7⟩) ∧
    (([1] : List Byte).length < (bare .P [.ok 1, .err ⟨7⟩]).cfg.opCount 0 ∧
      (bare .P [.ok 1, .err ⟨7⟩]).xcvr.answersOk [1] (bare .P [.err ⟨7⟩]).xcvr) := ⟨⟨by decide, rfl, rfl⟩, by decide, rfl, rfl⟩
/-- `PositionFollowsTheOperationIndex`: the last operation, never answered. -/
theorem test_hyp_position : ([1] : List Byte).length < (bare .P [.ok 1, .never]).cfg.opCount 0 ∧
    (bare .P [.ok 1, .never]).xcvr.answersOk [1] (bare .P [.never]).xcvr ∧ (bare .P [.never]).xcvr.answer = .never :=
  ⟨by decide, ⟨rfl, rfl⟩, rfl⟩
/-- `TransmissionEndsInOneOfThreeWays`. -/
theorem test_hyp_threeWays : v30.cmds = [] ∧ v30.units = [] := ⟨rfl, rfl⟩

/-- The reset state meets the invariant after `P.TRANSMIT` has started. -/
def started : State := State.reset.startRun .chan

theorem started_inv : started.Inv :=
  { buffers := fun _ => ⟨rfl, rfl, fun h => by cases h⟩
    cursor := fun _ h => by cases h
    seq := ⟨trivial, fun _ => ⟨rfl, rfl⟩, fun h => by cases h⟩
    trace := fun _ h => by cases h; exact ⟨rfl, fun e he => by cases he⟩
    last := by unfold State.lastOk; decide }

/-- The same one operation later: before the first payload byte. -/
def streaming : State :=
  { started with seq := .pos .payloadStreaming 0 .tx, trace := [{ op := .send 0x00, reply := .ok }] }

theorem streaming_inv : streaming.Inv :=
  { buffers := fun _ => ⟨rfl, rfl, fun h => by cases h⟩
    cursor := fun _ h => by cases h
    seq := ⟨show 0 < 36 by decide, fun _ => ⟨rfl, rfl⟩, fun h => by cases h⟩
    trace := fun _ h => by cases h; exact ⟨rfl, by decide⟩
    last := by unfold State.lastOk; decide }

/-- `InflightFollowsThePosition`. -/
theorem test_hyp_inflight : streaming.Inv ∧ streaming.run.isSome = true := ⟨streaming_inv, rfl⟩
/-- `OnlyPadAndWaveformBytesAreSent`: a pad byte, and a payload byte. -/
theorem test_hyp_onlyPadAndWave : (started.Inv ∧ started.issues = some (.send 0x00) ∧ started.run = some .chan) ∧
    (streaming.Inv ∧ streaming.issues = some (.send 0x88) ∧ streaming.run = some .chan) :=
  ⟨⟨started_inv, rfl, rfl⟩, streaming_inv, by decide, rfl⟩
/-- `TransmissionLeavesTheStoreAlone`. -/
theorem test_hyp_leavesAlone : started.busy = true ∧ step started = .next streaming := ⟨rfl, by rfl⟩

/-- A machine with command words waiting. -/
def waiting (ws : List CmdWord) (cs : List ColourWord) : State := { v31 with cmds := ws, colours := cs }

/-- `StepRunsTheCommandAtThePort`: no word; a colour word still missing; all there. -/
theorem test_hyp_stepCommand : (waiting [] []).busy = false ∧ (waiting [] []).units = [] ∧ (waiting [] []).cmds = [] ∧
    (waiting [0x600001000000] []).colours.length < colourCount 0x600001000000 ∧
    colourCount 0x600001000000 ≤ (waiting [0x600001000000] [0x010203]).colours.length := by decide
/-- `StepRunsTheSequencersOperation`: a send, a receive, a word at a component. -/
theorem test_hyp_stepOperation : (started.busy = true ∧ started.issues = some (.send 0x00)) ∧
    ((inRun v30 [] (.pos .draining 0 .rx) (.ok 0)).busy = true ∧
      (inRun v30 [] (.pos .draining 0 .rx) (.ok 0)).issues = some .recv) ∧
    ({ v30 with units := [.wave 0xE8] }.busy = false ∧ (decode v30.cfg (.wave 0xE8)).toOption = some .wave10) := by decide
/-- `NoCommandIsWithoutMeaning`. -/
theorem test_hyp_noCommand : (waiting [0xF00000000000] []).units = [] := rfl
/-- `NoStepChangesTheParameters` and `EveryStepKeepsTheInvariant`. -/
theorem test_hyp_step : started.Inv ∧ step started = .next streaming := ⟨started_inv, by rfl⟩
/-- `DecodingAnEncodedInstructionGivesItBack`: the largest index. -/
theorem test_hyp_roundTrip : (Instr.sReadRaw 65535).wellFormed = true := by decide
/-- `EachCommandHasOneEncoding` and `DecodedInstructionsAreWellFormed`. -/
theorem test_hyp_oneEncoding : isReserved 0x10FFFF000000 = false ∧
    (decode cfgS (.cmd 0x10FFFF000000 [])).toOption = some (.sReadRaw 65535) := by decide
/-- `FrameTimeIsProportionalToItsBytes`: 3.0 MHz, and 2.0 MHz. -/
theorem test_hyp_frameTime : Link.atReset.clockHz = 3000000 ∧ { Link.atReset with clockHz := 2000000 }.clockHz = 2000000 :=
  ⟨rfl, rfl⟩

end Sys2Proof.Tests
end

section
/-! PROOFS. Scope (00_scope.md): every command has a meaning (R16), and error values are opaque (R11). -/

namespace Sys2Proof.Machine

/-! ### No command is without a meaning (R16) -/

/-- No instruction is refused by the interface: each ends in a next state or a named fault. -/
theorem exec_ne_refused (i : Instr) (s : State) (why : Refusal) : exec i s ≠ .refused why := by
  have next_ne (t : State) : (.next t : Result) ≠ .refused why := by simp
  cases i with
  | pConstruct => exact State.guarded_ne_refused (next_ne _)
  | sConstruct => exact State.guarded_ne_refused (next_ne _)
  | pReadRaw idx => exact State.guarded_ne_refused (orFault_ne_refused fun _ => next_ne _)
  | sReadRaw idx => exact State.guarded_ne_refused (orFault_ne_refused fun _ => next_ne _)
  | pReadColor px => exact State.guarded_ne_refused (orFault_ne_refused fun _ => next_ne _)
  | sReadColor px => exact State.guarded_ne_refused (orFault_ne_refused fun _ => next_ne _)
  | pSetColor px c =>
    exact State.guarded_ne_refused (orFault_ne_refused fun _ => orFault_ne_refused fun _ => next_ne _)
  | sWriteRaw idx v => exact State.guarded_ne_refused (orFault_ne_refused fun _ => next_ne _)
  | pTransmit => exact State.guarded_ne_refused (next_ne _)
  | sWriteAll cs => exact State.guarded_ne_refused (orFault_ne_refused fun _ => next_ne _)
  | reservedOp w => exact next_ne _
  | wave00 => exact next_ne _
  | wave01 => exact next_ne _
  | wave10 => exact next_ne _
  | wave11 => exact next_ne _
  | wave h l => exact next_ne _
  | encodeChan c => exact next_ne _
  | xcvrSend b => exact State.transceive_ne_refused
  | xcvrRecv => exact State.transceive_ne_refused
  | seqRun p =>
    show execSeqRun p s ≠ _
    unfold execSeqRun
    split
    · simp
    · exact next_ne _

/-- Settles O46: with no word at a component, the step does nothing, or runs the sequencer's operation, or an instruction that a
command word always decodes to; and no instruction is refused. -/
theorem noCommandIsWithoutMeaning : Obligations.NoCommandIsWithoutMeaning := by
  intro s why hu
  have idle (h : s.fetch = .nothing) : step s ≠ .refused why := by rw [step_nothing h]; simp
  cases hb : s.busy with
  | true =>
    cases hi : s.issues with
    | none => exact idle (State.fetch_waiting hb hi)
    | some op => rw [step_operation hb hi]; exact State.transceive_ne_refused
  | false =>
    cases hc : s.cmds with
    | nil => exact idle (State.fetch_idle hb hu hc)
    | cons w ws =>
      by_cases hl : colourCount w ≤ s.colours.length
      · rw [step_words (State.fetch_command hb hu hc hl) (decode_command _ (by simpa using hl))]
        exact exec_ne_refused _ _ _
      · exact idle (State.fetch_short hb hu hc (by omega))

/-! ### Results under a change of the next state -/

/-- Going on with a value that holds none of the renamed ones. -/
theorem orFault_mapNext {α : Type} {g : State → State} {x : Except Fault α} {k k' : α → Result}
    (h : ∀ v, k' v = mapNext g (k v)) : orFault x k' = mapNext g (orFault x k) := by
  cases x with
  | ok v => exact h v
  | error f => rfl

/-- Going on with a value that is renamed itself. -/
theorem orFault_map_mapNext {α β : Type} {g : State → State} {r : α → β} {x : Except Fault α} {x' : Except Fault β}
    {k : α → Result} {k' : β → Result} (hx : x' = x.map r) (hk : ∀ v, k' (r v) = mapNext g (k v)) :
    orFault x' k' = mapNext g (orFault x k) := by
  subst hx
  cases x with
  | ok v => exact hk v
  | error f => rfl

/-! ### What the block is blind to: error values, received bytes, the link

A renaming acts on all three at once, and one theorem (`step_rename`) says that every step commutes with it. -/

/-- Another value for each error value (R11), each byte that a `RECV` returns (43_sequencer.md R181) and each link
configuration (70_reset_and_hazards.md R236). -/
structure Renaming where
  error : ChannelError → ChannelError := id
  byte : Byte → Byte := id
  link : Link → Link := id

namespace Renaming

def answer (ρ : Renaming) : Answer → Answer
  | .ok v => .ok (ρ.byte v)
  | .err e => .err (ρ.error e)
  | .never => .never

def reply (ρ : Renaming) : Reply → Reply
  | .ok => .ok
  | .okByte v => .okByte (ρ.byte v)
  | .err e => .err (ρ.error e)

def event (ρ : Renaming) (e : Event) : Event := { e with reply := ρ.reply e.reply }

def xcvr (ρ : Renaming) (x : Xcvr) : Xcvr :=
  { script := x.script.map ρ.answer, rest := ρ.answer x.rest, link := ρ.link x.link }

def block (ρ : Renaming) (b : Block) : Block :=
  { b with last := b.last.mapErr ρ.error, trace := b.trace.map ρ.event }

/-- The renaming, wherever the state holds one of the values. -/
def state (ρ : Renaming) (s : State) : State := { s with toBlock := ρ.block s.toBlock, xcvr := ρ.xcvr s.xcvr }

/-- What a step finds, renamed. -/
def fetched (ρ : Renaming) : Fetched → Fetched
  | .nothing => .nothing
  | .words ws s => .words ws (ρ.state s)

variable (ρ : Renaming)

/-! #### What a renaming leaves as it is -/

@[simp] theorem block_cfg (b : Block) : (ρ.block b).cfg = b.cfg := rfl
@[simp] theorem block_busy (b : Block) : (ρ.block b).busy = b.busy := rfl
@[simp] theorem block_issues (b : Block) : (ρ.block b).issues = b.issues := rfl
@[simp] theorem block_nextSeq (b : Block) : (ρ.block b).nextSeq = b.nextSeq := rfl
@[simp] theorem state_toBlock (s : State) : (ρ.state s).toBlock = ρ.block s.toBlock := rfl
@[simp] theorem state_xcvr (s : State) : (ρ.state s).xcvr = ρ.xcvr s.xcvr := rfl
@[simp] theorem state_cmds (s : State) : (ρ.state s).cmds = s.cmds := rfl
@[simp] theorem state_colours (s : State) : (ρ.state s).colours = s.colours := rfl
@[simp] theorem state_units (s : State) : (ρ.state s).units = s.units := rfl

/-! #### The transceiver and the block's response -/

theorem xcvr_answer (x : Xcvr) : (ρ.xcvr x).answer = ρ.answer x.answer := by
  simp [xcvr, Xcvr.answer, Option.getD_map]

theorem xcvr_answered (x : Xcvr) : (ρ.xcvr x).answered = ρ.xcvr x.answered := by
  simp [xcvr, Xcvr.answered]

theorem reply_okReply (op : XcvrOp) (v : Byte) : ρ.reply (okReply op v) = okReply op (ρ.byte v) := by
  cases op <;> rfl

theorem block_logged (b : Block) (op : XcvrOp) (r : Reply) :
    (ρ.block b).logged op (ρ.reply r) = ρ.block (b.logged op r) := by
  simp [block, Block.logged, event]

theorem block_advance (b : Block) : (ρ.block b).advance = ρ.block b.advance := by
  unfold Block.advance
  rw [block_nextSeq]
  cases b.nextSeq <;> rfl

theorem block_respond (b : Block) (op : XcvrOp) (a : Answer) :
    (ρ.block b).respond op (ρ.answer a) = (b.respond op a).map ρ.block := by
  cases a with
  | ok v =>
    show Except.ok ((ρ.block b).logged op (okReply op (ρ.byte v))).advance = _
    rw [← reply_okReply, block_logged, block_advance]; rfl
  | err e =>
    show Except.ok (((ρ.block b).logged op (ρ.reply (.err e))).raiseChannelError (ρ.error e)) = _
    rw [block_logged]; rfl
  | never => rfl

/-! #### Guards and faults: a command commutes when its body does -/

theorem state_guarded {s : State} {v : Variant} {n : Bool} {r r' : Result} (h : r' = mapNext ρ.state r) :
    (ρ.state s).guarded v n r' = mapNext ρ.state (s.guarded v n r) := by
  subst h
  have hc : (ρ.state s).constructed = s.constructed := rfl
  unfold State.guarded
  rw [state_toBlock, block_cfg, block_busy, ← state_toBlock, hc]
  split
  · rfl
  · split
    · rfl
    · split <;> rfl

/-! #### The instructions -/

theorem state_transceive (s : State) (op : XcvrOp) :
    (ρ.state s).transceive op = mapNext ρ.state (s.transceive op) := by
  unfold State.transceive
  rw [state_toBlock, block_issues, state_xcvr, xcvr_answer, xcvr_answered]
  split
  · exact orFault_map_mapNext (block_respond ρ _ _ _) fun _ => rfl
  · rfl

theorem state_readRaw (s : State) (idx : Nat) : (ρ.state s).readRaw idx = mapNext ρ.state (s.readRaw idx) :=
  orFault_mapNext (x := s.memRead idx 1) fun _ => rfl

theorem state_readColour (s : State) (v : Variant) (i : Nat) :
    (ρ.state s).readColour v i = mapNext ρ.state (s.readColour v i) :=
  orFault_mapNext (x := s.checkPixel i) fun _ => rfl

theorem state_memWrite (s : State) (a : Nat) (vs : List Byte) :
    (ρ.state s).memWrite a vs = (s.memWrite a vs).map ρ.state := by
  unfold State.memWrite
  rw [state_toBlock, block_cfg]
  split <;> rfl

theorem state_fill (s : State) (i : Nat) (cs : List Colour) : (ρ.state s).fill i cs = (s.fill i cs).map ρ.state := by
  by_cases h : cs ≠ [] → i + cs.length ≤ s.cfg.n ∧ s.cursor + 12 * cs.length ≤ s.cfg.encCap
  · rw [State.fill_ok h, State.fill_ok (s := ρ.state s) h]; rfl
  · obtain ⟨hne, hfit⟩ := Classical.not_imp.mp h
    rw [State.fill_error hne hfit, State.fill_error (s := ρ.state s) hne hfit]; rfl

/-- Every instruction commutes with a renaming. -/
theorem exec_state (i : Instr) (s : State) : exec i (ρ.state s) = mapNext ρ.state (exec i s) := by
  cases i with
  | pConstruct => exact state_guarded ρ rfl
  | sConstruct => exact state_guarded ρ rfl
  | pReadRaw idx => exact state_guarded ρ (state_readRaw ρ s idx)
  | sReadRaw idx => exact state_guarded ρ (state_readRaw ρ s idx)
  | pReadColor px => exact state_guarded ρ (state_readColour ρ s .P px)
  | sReadColor px => exact state_guarded ρ (state_readColour ρ s .S px)
  | pSetColor px c =>
    exact state_guarded ρ (orFault_mapNext (x := s.checkPixel px) fun _ =>
      orFault_map_mapNext (state_memWrite ρ s _ _) fun _ => rfl)
  | sWriteRaw idx v => exact state_guarded ρ (orFault_map_mapNext (state_memWrite ρ s _ _) fun _ => rfl)
  | pTransmit => exact state_guarded ρ rfl
  | sWriteAll cs =>
    exact state_guarded ρ (orFault_map_mapNext (state_fill ρ { s with cursor := 0 } 0 cs) fun _ => rfl)
  | reservedOp w => rfl
  | wave00 => rfl
  | wave01 => rfl
  | wave10 => rfl
  | wave11 => rfl
  | wave h l => rfl
  | encodeChan c => rfl
  | xcvrSend b => exact state_transceive ρ s (.send b)
  | xcvrRecv => exact state_transceive ρ s .recv
  | seqRun p =>
    show execSeqRun p (ρ.state s) = mapNext ρ.state (execSeqRun p s)
    unfold execSeqRun
    rw [state_toBlock, block_busy]
    split <;> rfl

/-! #### The step -/

theorem state_fetch (s : State) : (ρ.state s).fetch = ρ.fetched s.fetch := by
  unfold State.fetch
  rw [state_toBlock, block_busy, block_issues, state_units, state_cmds, state_colours]
  split
  · cases s.issues <;> rfl
  · cases s.units with
    | cons ws us => rfl
    | nil =>
      cases s.cmds with
      | nil => rfl
      | cons w ws => dsimp only; split <;> rfl

/-- Every step commutes with a renaming. -/
theorem step_state (s : State) : step (ρ.state s) = mapNext ρ.state (step s) := by
  unfold step
  rw [state_fetch, state_toBlock, block_cfg]
  cases s.fetch with
  | nothing => rfl
  | words ws s' =>
    simp only [fetched]
    cases decode s.cfg ws with
    | ok i => exact exec_state ρ i s'
    | error e => rfl

end Renaming

theorem Ended.mapErr_id (e : Ended) : e.mapErr id = e := by
  cases e with
  | running => rfl
  | returned r => cases r <;> rfl
  | refused why => rfl

/-- `State.mapErr` is a renaming of the error values alone. -/
theorem State.mapErr_eq_renaming (f : ChannelError → ChannelError) :
    State.mapErr f = Renaming.state { error := f } := by
  have ha : Answer.mapErr f = Renaming.answer { error := f } := by funext a; cases a <;> rfl
  have hr : Reply.mapErr f = Renaming.reply { error := f } := by funext r; cases r <;> rfl
  funext s
  unfold State.mapErr
  rw [ha, hr]
  rfl

/-- `State.mapReceived` is a renaming of the received bytes alone. -/
theorem State.mapReceived_eq_renaming (f : Byte → Byte) :
    State.mapReceived f = Renaming.state { byte := f } := by
  have ha : Answer.mapByte f = Renaming.answer { byte := f } := by funext a; cases a <;> rfl
  have hr : Reply.mapByte f = Renaming.reply { byte := f } := by funext r; cases r <;> rfl
  funext s
  unfold State.mapReceived Renaming.state Renaming.block
  rw [ha, hr, Ended.mapErr_id]
  rfl

/-- `State.withLink` is a renaming of the link configuration alone. -/
theorem State.withLink_eq_renaming (l : Link) (s : State) :
    s.withLink l = Renaming.state { link := fun _ => l } s := by
  have ha : Renaming.answer { link := fun _ => l } = id := by funext a; cases a <;> rfl
  have he : Renaming.event { link := fun _ => l } = id := by funext ⟨op, r⟩; cases r <;> rfl
  simp [State.withLink, Renaming.state, Renaming.block, Renaming.xcvr, ha, he, Ended.mapErr_id]

/-- Settles O49, as the renaming that changes error values alone. -/
theorem errorValuesAreNeverInspected : Obligations.ErrorValuesAreNeverInspected := by
  intro f s
  rw [State.mapErr_eq_renaming]
  exact Renaming.step_state { error := f } s

end Sys2Proof.Machine
end

section
/-! PROOFS. The state (10_state.md): what a step leaves of the parameters (R35, R46), what construction forgets (R44), the
invariant of the machine (R27, R30, R33), and the transceiver's answer as an input (R29). -/

namespace Sys2Proof.Machine

/-! ### What a step can do, for the block -/

/-- Between commands every instruction that answers a next state is one of the effects: no transceiver operation is issued. -/
theorem exec_effect_of_idle {i : Instr} {s t : State} (hb : s.busy = false) (h : exec i s = .next t) : Effect s t := by
  have no_operation {op : XcvrOp} (hx : s.transceive op = .next t) : False := by
    obtain ⟨src, hr⟩ := Block.run_of_issues (State.transceive_next hx).1
    rw [Block.busy_of_run hr] at hb
    cases hb
  rcases exec_next h with he | ⟨b, -, hx⟩ | ⟨-, hx⟩
  · exact he
  · exact (no_operation hx).elim
  · exact (no_operation hx).elim

/-- A step that answers a next state changes nothing, is the sequencer's operation, or has an effect between commands, on the
same block with words taken off the ports. -/
theorem step_next_effect {s t : State} (h : step s = .next t) :
    t = s ∨ (∃ op, s.issues = some op ∧ s.transceive op = .next t) ∨
      ∃ s' : State, s'.toBlock = s.toBlock ∧ s'.busy = false ∧ Effect s' t := by
  rcases step_next h with rfl | ⟨op, -, hi, hx⟩ | ⟨ws, us, i, hb, -, -, hx⟩ | ⟨w, ws, i, hb, -, -, -, -, hx⟩
  · exact .inl rfl
  · exact .inr (.inl ⟨op, hi, hx⟩)
  · exact .inr (.inr ⟨{ s with units := us }, rfl, hb, exec_effect_of_idle hb hx⟩)
  · exact .inr (.inr ⟨s.takeCommand w, rfl, hb, exec_effect_of_idle hb hx⟩)

/-! ### The parameters (R35, R46) -/

theorem Effect.cfg_eq {s t : State} (h : Effect s t) : t.cfg = s.cfg := by cases h <;> rfl

theorem State.transceive_cfg {s t : State} {op : XcvrOp} (h : s.transceive op = .next t) : t.cfg = s.cfg := by
  rw [State.transceive_frame h]

/-- Settles O47: neither the sequencer's operation nor an effect writes a parameter. -/
theorem noStepChangesTheParameters : Obligations.NoStepChangesTheParameters := by
  intro s t h
  rcases step_next_effect h with rfl | ⟨op, -, hx⟩ | ⟨s', hs', -, he⟩
  · rfl
  · exact State.transceive_cfg hx
  · rw [he.cfg_eq, hs']

/-! ### Contents before construction (R44) -/

/-- Before construction `busy` does not read `seq`, which has no value there. -/
theorem Block.busy_of_unconstructed {b : Block} (hc : b.constructed = false) : b.busy = b.run.isSome := by
  simp [Block.busy, hc]

/-- Before construction the guards of the `CONSTRUCT` of the right variant read `run` and no other field. -/
theorem State.guarded_congr_unconstructed {s t : State} {v : Variant} {r : Result} (hs : s.constructed = false)
    (ht : t.constructed = false) (hsv : s.cfg.variant = v) (htv : t.cfg.variant = v) (hr : t.run = s.run) :
    t.guarded v false r = s.guarded v false r := by
  simp [State.guarded, hsv, htv, Block.busy_of_unconstructed hs, Block.busy_of_unconstructed ht, hr]

/-- Settles O6: the guards read none of the old contents, and the bodies overwrite them. -/
theorem constructForgetsOldContents : Obligations.ConstructForgetsOldContents := by
  intro s chan enc cursor q hc
  refine ⟨fun hv => ?_, fun hv => ?_⟩
  · show State.guarded { s with chan := chan, enc := enc, cursor := cursor, seq := q } .S false _ = s.guarded .S false _
    exact State.guarded_congr_unconstructed hc hc hv hv rfl
  · show State.guarded { s with chan := chan, seq := q } .P false _ = s.guarded .P false _
    exact State.guarded_congr_unconstructed hc hc hv hv rfl

/-! ### The invariant, by the way a state stands -/

/-- The invariant speaks of the block alone. -/
theorem State.Inv.of_toBlock_eq {s t : State} (h : s.Inv) (e : t.toBlock = s.toBlock) : t.Inv := by
  cases s
  cases t
  cases e
  exact ⟨h.buffers, h.cursor, h.seq, h.trace, h.last⟩

/-- A command's own payload source belongs to its variant, and its store exists (the last two clauses of `State.seqOk`). -/
def State.ownsSource (s : State) (src : Source) : Prop :=
  (src = .chan → s.cfg.variant = .P ∧ s.constructed = true) ∧ (src = .enc → s.cfg.variant = .S ∧ s.constructed = true)

theorem State.seqOk_of_run {s : State} {src : Source} (hr : s.run = some src) :
    s.seqOk ↔ s.seq.legal s.cfg (s.payloadLen src) ∧ s.ownsSource src := by
  simp only [State.seqOk, hr, State.ownsSource]

/-- Between commands the invariant is that of the store, an idle sequencer and an end. -/
theorem State.inv_of_ended {s : State} (hr : s.run = none) (hl : s.last ≠ .running)
    (hq : s.constructed = true → s.seq = .idle) (hb : s.buffersOk) (hc : s.cursorOk) : s.Inv where
  buffers := hb
  cursor := hc
  seq := by simpa only [State.seqOk, hr] using hq
  trace := fun src h => by rw [hr] at h; cases h
  last := by simp [State.lastOk, hr, hl]

/-- Before operation `j` of a transmission the invariant is that of the store, and a trace of `j` operations answered `ok`. -/
theorem State.inv_of_at {s : State} {src : Source} {j : Nat} (ha : s.at src j) (hl : s.last = .running)
    (ho : s.ownsSource src) (ht : opsOf s.trace = (opList s.cfg (s.payload src)).take j)
    (hk : ∀ e ∈ s.trace, e.reply.isOk = true) (hb : s.buffersOk) (hc : s.cursorOk) : s.Inv where
  buffers := hb
  cursor := hc
  seq := (State.seqOk_of_run ha.run).mpr ⟨ha.seq ▸ (Seq.legal_ofIndex ha.lt).1, ho⟩
  trace := fun src' h => by
    obtain rfl : src = src' := Option.some.inj (ha.run.symm.trans h)
    rw [ha.seq, (Seq.legal_ofIndex ha.lt).2]
    exact ⟨ht, hk⟩
  last := by simp [State.lastOk, ha.run, hl]

/-- Under the invariant a running transmission is before the operation of its position's index. -/
theorem State.Inv.at_index {s : State} {src : Source} (h : s.Inv) (hr : s.run = some src) :
    s.at src (s.seq.index s.cfg (s.payloadLen src)) := by
  obtain ⟨hq, hlt⟩ := Seq.ofIndex_index ((State.seqOk_of_run hr).mp h.seq).1
  exact ⟨hr, hlt, hq.symm⟩

/-- A transmission that starts meets the invariant where the store does. -/
theorem State.inv_startRun {s : State} {src : Source} (ho : s.ownsSource src) (hb : s.buffersOk) (hc : s.cursorOk) :
    (s.startRun src).Inv :=
  State.inv_of_at (State.at_startRun s src) rfl ho rfl (by simp) hb hc

/-! ### The store after the effects -/

/-- `P.CONSTRUCT` and `S.CONSTRUCT` leave empty buffers, `enc` in variant `S` only. -/
theorem State.buffersOk_of_nil {s : State} (hc : s.chan = []) (he : s.cfg.variant = .S → s.enc = []) : s.buffersOk := by
  intro _
  refine ⟨by rw [hc]; rfl, by rw [hc]; rfl, fun hv => ?_⟩
  rw [he hv]
  exact ⟨rfl, rfl⟩

theorem State.cursorOk_of_zero {s : State} (hk : s.cfg.variant = .S → s.cursor = 0) : s.cursorOk := by
  intro _ hv
  simp [hk hv]

/-- Bytes written inside the slot space keep the buffers as they must be. -/
theorem State.buffersOk_writeList {s : State} {a : Nat} {vs : List Byte} (h : s.buffersOk)
    (ha : a + vs.length ≤ s.cfg.slots) : State.buffersOk { s with chan := s.chan.writeList a vs } := by
  intro hc
  obtain ⟨hw, hb, he⟩ := h hc
  exact ⟨Memory.writeList_wf hw, Memory.writeList_below hb ha, he⟩

/-- So does a fill that fits. -/
theorem State.buffersOk_filled {s : State} {cs : List Colour} (h : s.buffersOk) (hf : s.fits cs) (hk : s.cursor = 0) :
    (s.filled 0 cs).buffersOk := by
  obtain ⟨hn, hcap⟩ := hf
  intro hc
  obtain ⟨hw, hb, he⟩ := h hc
  refine ⟨Memory.writeList_wf hw, Memory.writeList_below hb ?_, fun hv => ?_⟩
  · rw [flatMap_slotBytes_length]
    show 3 * 0 + 3 * cs.length ≤ 3 * s.cfg.n
    omega
  · obtain ⟨hew, heb⟩ := he hv
    refine ⟨Memory.writeList_wf hew, Memory.writeList_below heb ?_⟩
    rw [flatMap_pixel12_length]
    show s.cursor + 12 * cs.length ≤ s.cfg.encCap
    omega

/-- After a fill the cursor stands behind whole pixels of waveform bytes (R26, R27). -/
theorem State.cursorOk_filled {s : State} {cs : List Colour} (h : s.buffersOk) (hf : s.fits cs) (hk : s.cursor = 0) :
    (s.filled 0 cs).cursorOk := by
  intro hc hv
  have hcur : (s.filled 0 cs).cursor = 12 * cs.length := by simp [State.filled, hk]
  rw [hcur]
  refine ⟨hf.2, by omega, fun j hj => ?_⟩
  have hlen : j < (cs.flatMap Encoder.pixel12).length := by rwa [flatMap_pixel12_length]
  have hread : (s.filled 0 cs).enc.read j = (cs.flatMap Encoder.pixel12)[j] := by
    show Memory.read (s.enc.writeList s.cursor _) j = _
    rw [hk, Memory.read_writeList ((h hc).2.2 hv).1, if_pos (by omega), Nat.sub_zero, List.getD_eq_getElem _ _ hlen]
  rw [hread]
  exact isWave_flatMap_pixel12 (List.getElem_mem hlen)

/-! ### Every step keeps the invariant -/

/-- An effect between commands keeps the invariant. -/
theorem Effect.keeps_inv {s t : State} (he : Effect s t) (h : s.Inv) (hb : s.busy = false) : t.Inv := by
  have hr : s.run = none := Block.run_none_of_idle hb
  have hq : s.constructed = true → s.seq = .idle := Block.seq_idle_of_idle hb
  cases he with
  | ended e hl => exact State.inv_of_ended hr hl hq h.buffers h.cursor
  | pConstruct hv =>
    have not_S : s.cfg.variant ≠ .S := by simp [hv]
    exact State.inv_of_ended hr (by simp) (fun _ => rfl) (State.buffersOk_of_nil rfl fun hS => (not_S hS).elim)
      (State.cursorOk_of_zero fun hS => (not_S hS).elim)
  | sConstruct hv =>
    exact State.inv_of_ended hr (by simp) (fun _ => rfl) (State.buffersOk_of_nil rfl fun _ => rfl)
      (State.cursorOk_of_zero fun _ => rfl)
  | stored a vs ha hc =>
    exact State.inv_of_ended hr (by simp) hq (State.buffersOk_writeList h.buffers ha) h.cursor
  | transmit hv hc => exact State.inv_startRun ⟨fun _ => ⟨hv, hc⟩, nofun⟩ h.buffers h.cursor
  | writeAll cs hv hc _ hf =>
    have hfit : State.fits { s with cursor := 0 } cs := by
      cases cs with
      | nil => exact ⟨Nat.zero_le _, Nat.zero_le _⟩
      | cons c cs => exact hf (by simp)
    exact State.inv_startRun ⟨nofun, fun _ => ⟨hv, hc⟩⟩ (State.buffersOk_filled h.buffers hfit rfl)
      (State.cursorOk_filled h.buffers hfit rfl)
  | seqRun p => exact State.inv_startRun ⟨nofun, nofun⟩ h.buffers h.cursor

/-- A transmission's operation keeps the invariant: answered `ok` it is one more operation of the trace (43_sequencer.md R194), or
the last one; answered with an error it ends the transmission. -/
theorem State.at.step_keeps_inv {s t : State} {src : Source} {j : Nat} (ha : s.at src j) (h : s.Inv)
    (hs : step s = .next t) : t.Inv := by
  obtain ⟨op, hop, ho⟩ := ha.op
  cases hx : s.xcvr.answer with
  | ok v =>
    rcases Nat.lt_or_eq_of_le (Nat.succ_le_of_lt ha.lt) with hj | hj
    · obtain rfl := Host.Outcome.next.inj ((ha.step_ok ho hx hj).symm.trans hs)
      obtain ⟨htrace, hok⟩ := h.trace src ha.run
      rw [ha.seq, (Seq.legal_ofIndex ha.lt).2] at htrace
      refine State.inv_of_at (src := src) (j := j + 1) ⟨ha.run, hj, rfl⟩ ?_ ((State.seqOk_of_run ha.run).mp h.seq).2 ?_ ?_
        h.buffers h.cursor
      · exact h.last.mp (by rw [ha.run]; rfl)
      · show opsOf (s.trace ++ [_]) = (opList s.cfg (s.payload src)).take (j + 1)
        rw [List.take_add_one, hop, ← htrace]
        simp [opsOf]
      · intro e he
        rcases List.mem_append.mp he with he | he
        · exact hok e he
        · obtain rfl := List.mem_singleton.mp he
          exact okReply_isOk op v
    · obtain rfl := Host.Outcome.next.inj ((ha.step_last ho hx hj).symm.trans hs)
      exact State.inv_of_ended rfl (by simp) (fun _ => rfl) h.buffers h.cursor
  | err e =>
    obtain rfl := Host.Outcome.next.inj ((ha.step_err ho hx).symm.trans hs)
    exact State.inv_of_ended rfl (by simp) (fun _ => rfl) h.buffers h.cursor
  | never =>
    rw [ha.step_never ho hx] at hs
    cases hs

/-- Settles O51: by what the step did, nothing, an operation of the running transmission, or an effect between commands. -/
theorem everyStepKeepsTheInvariant : Obligations.EveryStepKeepsTheInvariant := by
  intro s t h hs
  rcases step_next_effect hs with rfl | ⟨op, ho, -⟩ | ⟨s', hs', hb, he⟩
  · exact h
  · obtain ⟨src, hr⟩ := Block.run_of_issues ho
    exact (h.at_index hr).step_keeps_inv h hs
  · exact he.keeps_inv (h.of_toBlock_eq hs') hb

/-! ### The transceiver's answer as an input (R29) -/

/-- Where an operation is issued, the step is the block's response to the transceiver's answer. -/
theorem step_of_issues {s : State} {op : XcvrOp} (h : s.issues = some op) :
    step s = orFault (s.respond op s.xcvr.answer) fun b => .next { s with toBlock := b, xcvr := s.xcvr.answered } := by
  obtain ⟨src, hr⟩ := Block.run_of_issues h
  rw [step_operation (Block.busy_of_run hr) h, State.transceive_issued h]

/-- With no operation issued and nothing at the ports, the machine rests, in whatever position it is. -/
theorem step_of_issues_none {s : State} (h : s.issues = none) (hu : s.units = []) (hc : s.cmds = []) :
    step s = .next s := by
  cases hb : s.busy with
  | true => exact step_nothing (State.fetch_waiting hb h)
  | false => exact step_nothing (State.fetch_idle hb hu hc)

theorem Block.runUnder_of_issues_none {o : Oracle} {past : List Event} {k : Nat} {b : Block} (h : b.issues = none) :
    b.runUnder o past (k + 1) = .ok b := by
  simp only [Block.runUnder, h]

theorem Block.runUnder_of_issues {o : Oracle} {past : List Event} {k : Nat} {b : Block} {op : XcvrOp}
    (h : b.issues = some op) :
    b.runUnder o past (k + 1) = (b.respond op (o (past ++ b.trace) op)).bind (Block.runUnder o past k) := by
  simp only [Block.runUnder, h]
  cases b.respond op (o (past ++ b.trace) op) <;> rfl

/-- The transceiver that gives one answer more before those of `x`. -/
def Xcvr.answering (a : Answer) (x : Xcvr) : Xcvr := { x with script := a :: x.script }

@[simp] theorem Xcvr.answering_answer (a : Answer) (x : Xcvr) : (x.answering a).answer = a := rfl
@[simp] theorem Xcvr.answering_answered (a : Answer) (x : Xcvr) : (x.answering a).answered = x := rfl

/-- Along a run an oracle's answers are a list: the first answer, then those to the block that it leaves. -/
theorem State.exists_runs_eq_runUnder (o : Oracle) (past : List Event) (k : Nat) (s : State) (hc : s.cmds = [])
    (hu : s.units = []) :
    ∃ x y : Xcvr, State.runs { s with xcvr := x } k =
      orFault (s.toBlock.runUnder o past k) fun b => .next { s with toBlock := b, xcvr := y } := by
  induction k generalizing s with
  | zero => exact ⟨s.xcvr, s.xcvr, rfl⟩
  | succ k ih =>
    cases hi : s.issues with
    | none =>
      rw [Block.runUnder_of_issues_none hi]
      exact ⟨s.xcvr, s.xcvr, State.runs_rest (step_of_issues_none hi hu hc)⟩
    | some op =>
      rw [Block.runUnder_of_issues hi]
      have hstep (x : Xcvr) := step_of_issues (s := { s with xcvr := x.answering (o (past ++ s.trace) op) }) hi
      simp only [Xcvr.answering_answer, Xcvr.answering_answered] at hstep
      cases hb : s.respond op (o (past ++ s.trace) op) with
      | ok b =>
        obtain ⟨x, y, hxy⟩ := ih { s with toBlock := b } hc hu
        rw [hb] at hstep
        exact ⟨x.answering (o (past ++ s.trace) op), y, (State.runs_step (hstep x)).trans hxy⟩
      | error f =>
        rw [hb] at hstep
        exact ⟨s.xcvr.answering (o (past ++ s.trace) op), s.xcvr, State.runs_fault (hstep s.xcvr)⟩

/-- Settles O58, by the step of an issued operation and, for the runs, by induction on the number of operations. -/
theorem everyOracleIsAScript : Obligations.EveryOracleIsAScript := by
  refine ⟨fun s op h => ?_, fun o past s k hc hu => ?_⟩
  · rw [step_of_issues h]
    cases s.toBlock.respond op s.xcvr.answer <;> rfl
  · obtain ⟨x, y, hxy⟩ := State.exists_runs_eq_runUnder o past k s hc hu
    refine ⟨x, ?_⟩
    cases hb : s.toBlock.runUnder o past k with
    | ok b => rw [hb] at hxy; exact ⟨y, hxy⟩
    | error f => rw [hb] at hxy; exact hxy

end Sys2Proof.Machine
end

section
/-! PROOFS. Memory (20_memory.md): what the stores into `chan` leave behind, and storing again (R65). -/

namespace Sys2Proof.Machine

/-! ### `P.SET_COLOR` in and out of range (41_prerender_store.md R123) -/

/-- The state `P.SET_COLOR` leaves: the pixel's three slot bytes written, nothing answered. -/
def State.colourSet (s : State) (i : Nat) (c : Colour) : State :=
  { s with chan := s.chan.writeList (pixelBase i) (slotBytes .P c), last := .returned .nothing }

theorem exec_pSetColor_in {s : State} {i : Nat} {c : Colour} (h : s.accepts .P) (hi : i < s.cfg.n) :
    exec (.pSetColor i c) s = .next (s.colourSet i c) := by
  show State.guarded s .P true _ = _
  rw [State.guarded_of_accepts h, State.checkPixel_ok hi, State.storeColour_ok hi]
  rfl

theorem exec_pSetColor_out {s : State} {i : Nat} {c : Colour} (h : s.accepts .P) (hi : s.cfg.n ≤ i) :
    exec (.pSetColor i c) s = .fault .pixelIndexOutOfRange := by
  show State.guarded s .P true _ = _
  rw [State.guarded_of_accepts h, State.checkPixel_out hi]
  rfl

/-- An accepted `P.SET_COLOR` that answers a state had its pixel in range, and stored the colour. -/
theorem exec_pSetColor_next {s t : State} {i : Nat} {c : Colour} (h : s.accepts .P)
    (ht : exec (.pSetColor i c) s = .next t) : i < s.cfg.n ∧ t = s.colourSet i c := by
  rcases Nat.lt_or_ge i s.cfg.n with hi | hi
  · rw [exec_pSetColor_in h hi] at ht
    exact ⟨hi, (Host.Outcome.next.inj ht).symm⟩
  · rw [exec_pSetColor_out h hi] at ht
    cases ht

/-- A stored colour leaves the store open to the next command: it writes none of the fields that the guards read. -/
theorem State.accepts.colourSet {s : State} {v : Variant} (h : s.accepts v) (i : Nat) (c : Colour) :
    (s.colourSet i c).accepts v := h

/-! ### Storing again (R65) -/

/-- Writing the same bytes again changes no byte, so by the canonical form it leaves the same list. -/
theorem Memory.writeList_idem {m : Memory} {a : Nat} {vs : List Byte} (h : m.wf = true) :
    writeList (writeList m a vs) a vs = writeList m a vs := by
  have hw : (writeList m a vs).wf = true := writeList_wf h
  refine Memory.ext (writeList_wf hw) hw fun x => ?_
  rw [read_writeList hw, read_writeList h]
  split <;> rfl

theorem State.colourSet_idem {s : State} {i : Nat} {c : Colour} (h : s.chan.wf = true) :
    (s.colourSet i c).colourSet i c = s.colourSet i c := by
  simp only [State.colourSet, Memory.writeList_idem h]

/-- Settles O15: the second command is in range as the first one was, and stores the same three bytes. -/
theorem setColorIsIdempotent : Obligations.SetColorIsIdempotent := by
  intro s t i c hw h ht
  obtain ⟨hi, rfl⟩ := exec_pSetColor_next h ht
  rw [exec_pSetColor_in (h.colourSet i c) hi, State.colourSet_idem hw]

end Sys2Proof.Machine
end

section
/-! PROOFS. Encodings (30_encoding.md): the round trip between instructions and words (R81 to R97), the frame one transmission
sends (R84) and its bytes (R93), the waveform rows (R81), what refused commands do (R94 to R96), and the command at the port (R88). -/

namespace Sys2Proof.Machine

/-! ### From an instruction to its words and back (R81 to R97) -/

/-- Settles O53, row by row of the opcode table. -/
theorem decodingAnEncodedInstructionGivesItBack : Obligations.DecodingAnEncodedInstructionGivesItBack := by
  intro cfg i hw
  cases i with
  | pConstruct => exact Laws.RoundTrip.pConstruct hw cfg
  | pReadRaw idx => exact Laws.RoundTrip.pReadRaw idx hw cfg
  | pReadColor px => exact Laws.RoundTrip.pReadColor px hw cfg
  | pSetColor px c => exact Laws.RoundTrip.pSetColor px c hw cfg
  | pTransmit => exact Laws.RoundTrip.pTransmit hw cfg
  | sConstruct => exact Laws.RoundTrip.sConstruct hw cfg
  | sReadRaw idx => exact Laws.RoundTrip.sReadRaw idx hw cfg
  | sWriteRaw idx v => exact Laws.RoundTrip.sWriteRaw idx v hw cfg
  | sReadColor px => exact Laws.RoundTrip.sReadColor px hw cfg
  | sWriteAll cs => exact Laws.RoundTrip.sWriteAll cs hw cfg
  | reservedOp w => exact Laws.RoundTrip.reservedOp w hw cfg
  | wave00 => exact Laws.RoundTrip.wave00 hw cfg
  | wave01 => exact Laws.RoundTrip.wave01 hw cfg
  | wave10 => exact Laws.RoundTrip.wave10 hw cfg
  | wave11 => exact Laws.RoundTrip.wave11 hw cfg
  | wave h l => exact Laws.RoundTrip.wave h l hw cfg
  | encodeChan c => exact Laws.RoundTrip.encodeChan c hw cfg
  | xcvrSend b => exact Laws.RoundTrip.xcvrSend b hw cfg
  | xcvrRecv => exact Laws.RoundTrip.xcvrRecv hw cfg
  | seqRun p => exact Laws.RoundTrip.seqRun p hw cfg

/-! ### From a command word to its instruction and back (R94, R97) -/

/-- Under either strap the words of a command's row are read as a row of the same words and the same check. -/
theorem asRead_of_row {i : Instr} {v : Variant} (h : rowVariant i = some v) (v' : Variant) (cfg : Config) :
    (i.asRead v').wellFormed = i.wellFormed ∧ (∃ u, rowVariant (i.asRead v') = some u) ∧
      encode cfg (i.asRead v') = encode cfg i := by
  cases i with
  | pConstruct | pReadRaw | pReadColor | sConstruct | sReadRaw | sReadColor => cases v' <;> exact ⟨rfl, ⟨_, rfl⟩, rfl⟩
  | pSetColor | pTransmit | sWriteRaw | sWriteAll => exact ⟨rfl, ⟨_, rfl⟩, rfl⟩
  | _ => cases h

/-- The command words of the R97 table, row by row; the variants share the first, second and fourth. -/
inductive CommandRow : CmdWord → Prop where
  | construct : CommandRow (cmdWord 0 0 0)
  | readRaw (idx : BitVec 16) : CommandRow (cmdWord 1 idx 0)
  | writeRaw (idx : BitVec 16) (v : Byte) : CommandRow (cmdWord 2 idx (v.setWidth 24))
  | readColor (idx : BitVec 16) : CommandRow (cmdWord 3 idx 0)
  | setColor (idx : BitVec 16) (c : ColourWord) : CommandRow (cmdWord 4 idx c)
  | transmit : CommandRow (cmdWord 5 0 0)
  | writeAll (count : BitVec 16) : CommandRow (cmdWord 6 count 0)

/-- An `op` is one of the seven of the R97 table, or a reserved one. -/
theorem opcode_cases : ∀ op : BitVec 4,
    op = 0 ∨ op = 1 ∨ op = 2 ∨ op = 3 ∨ op = 4 ∨ op = 5 ∨ op = 6 ∨ 7 ≤ op.toNat := by decide

/-- A command word that is not reserved is in the table: its fields are those of its `op`'s row. -/
theorem CommandRow.of_not_reserved {w : CmdWord} (h : isReserved w = false) : CommandRow w := by
  have hn := mt (isReserved_iff w).mpr (by simp [h])
  simp only [not_or, not_and, Decidable.not_not, ne_eq] at hn
  obtain ⟨hop, hrsv, h05, h136, h2⟩ := hn
  rw [← cmdWord_fields hrsv]
  rcases opcode_cases (cmdOp w) with ho | ho | ho | ho | ho | ho | ho | ho
  · obtain ⟨hx, hd⟩ := h05 (by simp [ho]); rw [ho, hx, hd]; exact .construct
  · rw [ho, h136 (by simp [ho])]; exact .readRaw _
  · rw [ho, ← data_of_byte (h2 (by simp [ho]))]; exact .writeRaw _ _
  · rw [ho, h136 (by simp [ho])]; exact .readColor _
  · rw [ho]; exact .setColor _ _
  · obtain ⟨hx, hd⟩ := h05 (by simp [ho]); rw [ho, hx, hd]; exact .transmit
  · rw [ho, h136 (by simp [ho])]; exact .writeAll _
  · exact absurd ho hop

/-- No colour words follow a command word whose `op` is not that of `S.WRITE_ALL` (R88). -/
theorem colours_eq_nil {op : BitVec 4} {idx : BitVec 16} {data : BitVec 24} {colours : List ColourWord} (ho : op ≠ 6)
    (hl : colours.length = colourCount (cmdWord op idx data)) : colours = [] := by
  rw [colourCount_cmdWord, if_neg ho] at hl
  exact List.eq_nil_of_length_eq_zero hl

/-- A word of the table is, with its colour words, the encoding of a well-formed command. -/
theorem CommandRow.exists_encode_eq {w : CmdWord} {colours : List ColourWord} (h : CommandRow w)
    (hl : colours.length = colourCount w) (cfg : Config) :
    ∃ i v, rowVariant i = some v ∧ i.wellFormed = true ∧ encode cfg i = .cmd w colours := by
  have fits (idx : BitVec 16) : fitsIdx idx.toNat = true := decide_eq_true idx.isLt
  cases h with
  | construct =>
    obtain rfl := colours_eq_nil (by decide) hl
    exact ⟨.pConstruct, _, rfl, rfl, rfl⟩
  | readRaw idx =>
    obtain rfl := colours_eq_nil (by decide) hl
    exact ⟨.pReadRaw idx.toNat, _, rfl, fits idx, by simp [encode]⟩
  | writeRaw idx v =>
    obtain rfl := colours_eq_nil (by decide) hl
    exact ⟨.sWriteRaw idx.toNat v, _, rfl, fits idx, by simp [encode]⟩
  | readColor idx =>
    obtain rfl := colours_eq_nil (by decide) hl
    exact ⟨.pReadColor idx.toNat, _, rfl, fits idx, by simp [encode]⟩
  | setColor idx c =>
    obtain rfl := colours_eq_nil (by decide) hl
    exact ⟨.pSetColor idx.toNat (unpackColour c), _, rfl, fits idx, by simp [encode]⟩
  | transmit =>
    obtain rfl := colours_eq_nil (by decide) hl
    exact ⟨.pTransmit, _, rfl, rfl, rfl⟩
  | writeAll count =>
    have hc : (colours.map unpackColour).length = count.toNat := by simpa [colourCount_cmdWord] using hl
    refine ⟨.sWriteAll (colours.map unpackColour), _, rfl, ?_, ?_⟩
    · rw [Instr.wellFormed, hc]; exact fits count
    · rw [encode, hc, map_pack_unpack, BitVec.ofNat_toNat, BitVec.setWidth_eq]

/-- What a command word that is not reserved decodes to: a well-formed command, whose encoding it is. -/
theorem decode_of_not_reserved {w : CmdWord} {colours : List ColourWord} (h : isReserved w = false)
    (hl : colours.length = colourCount w) (cfg : Config) :
    ∃ i v, decode cfg (.cmd w colours) = .ok i ∧ rowVariant i = some v ∧ i.wellFormed = true ∧
      encode cfg i = .cmd w colours := by
  obtain ⟨i, v, hv, hi, he⟩ := (CommandRow.of_not_reserved h).exists_encode_eq hl cfg
  obtain ⟨hwf, ⟨u, hu⟩, henc⟩ := asRead_of_row hv cfg.variant cfg
  refine ⟨i.asRead cfg.variant, u, ?_, hu, hwf.trans hi, henc.trans he⟩
  rw [← he]
  exact decodingAnEncodedInstructionGivesItBack cfg i hi

/-- What a reserved command word decodes to, in both variants: its own row (R94). -/
theorem decode_of_reserved {w : CmdWord} {colours : List ColourWord} (h : isReserved w = true)
    (hl : colours.length = colourCount w) (cfg : Config) : decode cfg (.cmd w colours) = .ok (.reservedOp w) := by
  rw [decode_command cfg hl]
  simp [decodeCmd, h]

/-- A command word is accepted with the colour words it calls for, and with no other number (R88). -/
theorem colours_length_of_decode {cfg : Config} {w : CmdWord} {colours : List ColourWord} {i : Instr}
    (h : decode cfg (.cmd w colours) = .ok i) : colours.length = colourCount w := by
  by_contra hl
  rw [decode, if_neg hl] at h
  cases h

/-- Settles O23: a word that is not reserved decodes to a command's row, which `RESERVED.OP` is not. -/
theorem reservedWordsAreThoseOfTheTable : Obligations.ReservedWordsAreThoseOfTheTable := by
  intro cfg w colours hl
  rw [← isReserved_iff]
  refine ⟨fun hd => ?_, fun hr => decode_of_reserved hr hl cfg⟩
  by_contra hr
  obtain ⟨i, v, hi, hv, -⟩ := decode_of_not_reserved (Bool.eq_false_of_not_eq_true hr) hl cfg
  obtain rfl := Except.ok.inj (hi.symm.trans hd)
  cases hv

/-- Settles O54: what the word decodes to is a command whose encoding the word is. -/
theorem eachCommandHasOneEncoding : Obligations.EachCommandHasOneEncoding := by
  intro cfg w colours i hr hd
  obtain ⟨i', v, hi', -, -, he⟩ := decode_of_not_reserved hr (colours_length_of_decode hd) cfg
  obtain rfl := Except.ok.inj (hi'.symm.trans hd)
  exact he

/-! ### Accepted words stand for well-formed instructions (R89 to R97) -/

/-- A command word stands for a well-formed command, or for its own row of `RESERVED.OP`. -/
theorem wellFormed_of_decode_cmd {cfg : Config} {w : CmdWord} {colours : List ColourWord} {i : Instr}
    (h : decode cfg (.cmd w colours) = .ok i) :
    i.wellFormed = true ∧ ((∃ v, rowVariant i = some v) ∨ i = .reservedOp w) := by
  have hl := colours_length_of_decode h
  cases hr : isReserved w with
  | true =>
    obtain rfl := Except.ok.inj ((decode_of_reserved hr hl cfg).symm.trans h)
    exact ⟨hr, .inr rfl⟩
  | false =>
    obtain ⟨i', v, hi', hv, hwf, -⟩ := decode_of_not_reserved hr hl cfg
    obtain rfl := Except.ok.inj (hi'.symm.trans h)
    exact ⟨hwf, .inl ⟨v, hv⟩⟩

theorem wellFormed_of_decodeXcvr {w : XcvrWord} {i : Instr} (h : decodeXcvr w = .ok i) : i.wellFormed = true := by
  unfold decodeXcvr at h
  split at h
  · obtain rfl := Except.ok.inj h; rfl
  · split at h
    · obtain rfl := Except.ok.inj h; rfl
    · cases h

theorem wellFormed_of_decodeWave {b : Byte} {i : Instr} (h : decodeWave b = .ok i) : i.wellFormed = true := by
  unfold decodeWave at h
  split_ifs at h <;> obtain rfl := Except.ok.inj h <;> rfl

theorem wellFormed_of_decodeChan4 {w : Chan4Word} {i : Instr} (h : decodeChan4 w = .ok i) : i.wellFormed = true := by
  unfold decodeChan4 at h
  split at h
  · obtain rfl := Except.ok.inj h; rfl
  · cases h

/-- The decoder of `F-FRAME` checks the payload itself. -/
theorem wellFormed_of_decodeFrame {cfg : Config} {bs : List Byte} {i : Instr} (h : decodeFrame cfg bs = .ok i) :
    i.wellFormed = true := by
  simp only [decodeFrame] at h
  split at h
  · rename_i hp
    obtain rfl := Except.ok.inj h
    exact hp.2
  · cases h

/-- Settles O55, format by format. -/
theorem decodedInstructionsAreWellFormed : Obligations.DecodedInstructionsAreWellFormed := by
  intro cfg ws i h
  cases ws with
  | cmd w colours =>
    obtain ⟨hwf, hrow⟩ := wellFormed_of_decode_cmd h
    refine ⟨hwf, fun w' colours' e => ?_⟩
    cases e
    exact hrow
  | xcvr w => exact ⟨wellFormed_of_decodeXcvr h, nofun⟩
  | wave b => exact ⟨wellFormed_of_decodeWave h, nofun⟩
  | chan4 w => exact ⟨wellFormed_of_decodeChan4 h, nofun⟩
  | frame bs => exact ⟨wellFormed_of_decodeFrame h, nofun⟩

/-- Settles O56: the decoder runs on the words. -/
theorem exampleWordsDecode : Obligations.ExampleWordsDecode := by
  refine ⟨rfl, rfl, rfl, rfl, rfl, rfl, rfl, rfl, rfl⟩

/-! ### The frame and its bytes (R84, R93) -/

/-- One transmission sends the `F-FRAME` of its payload. -/
theorem sentBytes_opList (cfg : Config) (p : List Byte) : sentBytes (opList cfg p) = frameBytes cfg p := by
  simp [opList, frameBytes, sentBytes, sentBytes_append, sentBytes_cyclesOf]

theorem frameBytes_length (cfg : Config) (p : List Byte) :
    (frameBytes cfg p).length = 1 + cfg.leadCycles + p.length + cfg.trailCycles := by
  simp [frameBytes]
  omega

/-- Settles O29: the bytes sent are `F-FRAME`, whose length is the sum of its parts. -/
theorem sentBytesAreTheFrame : Obligations.SentBytesAreTheFrame := by
  intro cfg p
  rw [sentBytes_opList]
  exact ⟨by simp [frameBytes, Config.leadCycles, Config.trailCycles], frameBytes_length cfg p⟩

/-- A `SEND` is the lead byte or a pad byte, or the payload byte at a position of the payload phase (43_sequencer.md R184 to
R188). -/
theorem Block.issues_send {s : Block} {src : Source} {b : Byte} (hr : s.run = some src) (h : s.issues = some (.send b)) :
    (b = 0x00 ∧ ∀ k, s.seq ≠ .pos .payloadStreaming k .tx) ∨
      ∃ k, s.seq = .pos .payloadStreaming k .tx ∧ b = s.payloadByte src k := by
  simp only [Block.issues, hr] at h
  split at h
  case h_1 hq => cases h; exact .inl ⟨rfl, by simp [hq]⟩
  case h_3 hq => cases h; exact .inl ⟨rfl, by simp [hq]⟩
  case h_4 k hq => cases h; exact .inr ⟨k, hq, rfl⟩
  case h_5 hq => cases h; exact .inl ⟨rfl, by simp [hq]⟩
  all_goals cases h

/-- The payload of a command's transmission is made of waveform bytes: encoded slots, or the filled part of `enc`. -/
theorem State.Inv.isWave_payloadByte {s : State} {src : Source} {k : Nat} (h : s.Inv) (hr : s.run = some src)
    (hsrc : src = .chan ∨ src = .enc) (hk : k < s.payloadLen src) : Encoder.isWave (s.payloadByte src k) = true := by
  rcases hsrc with rfl | rfl
  · exact Encoder.isWave_waveOf _ _
  · obtain ⟨hv, hc⟩ := ((State.seqOk_of_run hr).mp h.seq).2.2 rfl
    obtain ⟨-, -, hwave⟩ := h.cursor hc hv
    exact hwave k hk

/-- Settles O42: a byte outside the payload phase is `0x00`, and one inside it is a waveform byte. -/
theorem onlyPadAndWaveformBytesAreSent : Obligations.OnlyPadAndWaveformBytesAreSent := by
  intro s b h hi hrun
  obtain ⟨src, hr, hsrc⟩ : ∃ src, s.run = some src ∧ (src = .chan ∨ src = .enc) := by
    rcases hrun with hr | hr
    · exact ⟨_, hr, .inl rfl⟩
    · exact ⟨_, hr, .inr rfl⟩
  rcases Block.issues_send hr hi with ⟨rfl, hq⟩ | ⟨k, hq, rfl⟩
  · exact ⟨.inl rfl, fun ⟨k, hk⟩ => absurd hk (hq k), fun hb => absurd rfl hb⟩
  · have hlegal := ((State.seqOk_of_run hr).mp h.seq).1
    rw [hq] at hlegal
    have hwave := (Encoder.isWave_iff _).mp (h.isWave_payloadByte hr hsrc hlegal)
    refine ⟨.inr hwave, fun _ h0 => ?_, fun _ => ⟨k, hq⟩⟩
    rw [h0] at hwave
    revert hwave
    decide

/-! ### The waveform rows (R81, 40_encoder.md R102, R105) -/

/-- A waveform byte is two bit cells. -/
theorem lut_eq_cells (h l : Bool) : Encoder.lut h l = Encoder.cell h ++ Encoder.cell l := by
  cases h <;> cases l <;> rfl

/-- Settles O2, the general row by the two cells of its byte. -/
theorem waveRowsGiveTheLookupByte : Obligations.WaveRowsGiveTheLookupByte := by
  refine ⟨fun s => ⟨rfl, rfl, rfl, rfl⟩, fun h l s => ⟨Encoder.cell h, Encoder.cell l, ?_, rfl, rfl, ?_⟩⟩
  · rw [← lut_eq_cells]; rfl
  · cases h <;> exact ⟨rfl, rfl⟩

/-! ### Refused commands (R94 to R96) -/

/-- A command of the other variant is refused, whatever else holds (R95). -/
theorem State.guarded_of_other_variant {s : State} {v : Variant} {n : Bool} {r : Result} (hv : s.cfg.variant ≠ v) :
    s.guarded v n r = .next (s.refuse .notInVariant) := by
  rw [State.guarded, if_pos hv]

/-- A command that needs the store is refused before construction (R96). -/
theorem State.guarded_of_unconstructed {s : State} {v : Variant} {r : Result} (hv : s.cfg.variant = v)
    (hc : s.constructed = false) : s.guarded v true r = .next (s.refuse .notConstructed) := by
  simp [State.guarded, hv, hc]

/-- Every command's row is a body under the guards of its variant; only the two `CONSTRUCT` need no store. -/
theorem exec_of_row {i : Instr} {v : Variant} (h : rowVariant i = some v) (s : State) :
    ∃ (n : Bool) (r : Result), exec i s = s.guarded v n r ∧ (i ≠ .pConstruct → i ≠ .sConstruct → n = true) := by
  cases i with
  | pConstruct => cases h; exact ⟨_, _, rfl, fun hp _ => absurd rfl hp⟩
  | sConstruct => cases h; exact ⟨_, _, rfl, fun _ hs => absurd rfl hs⟩
  | pReadRaw | pReadColor | pSetColor | pTransmit | sReadRaw | sWriteRaw | sReadColor | sWriteAll =>
    cases h; exact ⟨_, _, rfl, fun _ _ => rfl⟩
  | _ => cases h

/-- Settles O24, by the guards. -/
theorem refusedCommandsChangeNothing : Obligations.RefusedCommandsChangeNothing := by
  refine ⟨fun w s => rfl, fun i v s hi hv => ?_, fun i s hi hp hs hc => ?_⟩
  · obtain ⟨n, r, he, -⟩ := exec_of_row hi s
    rw [he]
    exact State.guarded_of_other_variant hv
  · obtain ⟨n, r, he, hn⟩ := exec_of_row hi s
    obtain rfl := hn hp hs
    rw [he]
    exact State.guarded_of_unconstructed rfl hc

/-! ### The command at the port (R88) -/

/-- Settles O44: by what the step finds at the command port. -/
theorem stepRunsTheCommandAtThePort : Obligations.StepRunsTheCommandAtThePort := by
  intro s hb hu
  refine ⟨fun hc => step_nothing (State.fetch_idle hb hu hc), fun w ws hc =>
    ⟨fun hl => step_nothing (State.fetch_short hb hu hc hl), fun hl => ?_⟩⟩
  have hd := decode_command s.cfg (w := w) (colours := s.colours.take (colourCount w)) (by simpa using hl)
  refine ⟨_, hd, (wellFormed_of_decode_cmd hd).1, ?_⟩
  rw [step_words (State.fetch_command hb hu hc hl) hd, State.takeCommand, hc]
  rfl

end Sys2Proof.Machine
end

section
/-! PROOFS. The Bit Encoder (40_encoder.md): the four bytes of `ENCODE` (R103, R104, R106), their inverse and constant bits (R108),
and their serial bits (R107). -/

namespace Sys2Proof.Machine

/-! ### The lookup's byte -/

/-- The bits of the lookup's byte, bit 7 first (R104). -/
theorem bitsMsbFirst_lut (h l : Bool) : bitsMsbFirst (Encoder.lut h l) = [true, h, h, false, true, l, l, false] := by
  cases h <;> cases l <;> rfl

/-- The arithmetic form of the lookup (R106). -/
theorem toNat_lut (h l : Bool) : (Encoder.lut h l).toNat = 0x88 + 0x60 * h.toNat + 0x06 * l.toNat := by
  cases h <;> cases l <;> rfl

theorem bitsMsbFirst_eq (b : Byte) : bitsMsbFirst b =
    [b.getLsbD 7, b.getLsbD 6, b.getLsbD 5, b.getLsbD 4, b.getLsbD 3, b.getLsbD 2, b.getLsbD 1, b.getLsbD 0] := rfl

/-- The serial bits of the lookup's byte are the cell of `h`, then the cell of `l`. -/
theorem bitsMsbFirst_lut_eq_cellBits (h l : Bool) : bitsMsbFirst (Encoder.lut h l) = cellBits h ++ cellBits l := by
  rw [bitsMsbFirst_lut]
  cases h <;> cases l <;> rfl

/-! ### The four bytes of `ENCODE` -/

/-- A byte of `ENCODE` bit by bit (R104): bits 7 and 3 are 1, bits 4 and 0 are 0, and each source bit stands twice. -/
theorem getLsbD_waveOf (c : Byte) (k : Nat) {w : Byte} (hw : w = Encoder.waveOf c k) :
    w.getLsbD 7 = true ∧ w.getLsbD 6 = c.getLsbD (7 - 2 * k) ∧ w.getLsbD 5 = c.getLsbD (7 - 2 * k) ∧ w.getLsbD 4 = false ∧
    w.getLsbD 3 = true ∧ w.getLsbD 2 = c.getLsbD (6 - 2 * k) ∧ w.getLsbD 1 = c.getLsbD (6 - 2 * k) ∧ w.getLsbD 0 = false := by
  have h := bitsMsbFirst_lut (c.getLsbD (7 - 2 * k)) (c.getLsbD (6 - 2 * k))
  rw [← Encoder.waveOf, ← hw] at h
  simpa only [bitsMsbFirst_eq, List.cons.injEq, and_true] using h

theorem encode_getElem?_eq_some {c w : Byte} {k : Nat} (h : (Encoder.encode c)[k]? = some w) : w = Encoder.waveOf c k := by
  obtain ⟨hk, hw⟩ := List.getElem?_eq_some_iff.mp h
  rw [Encoder.encode_length] at hk
  rw [← hw]
  match k, hk with
  | 0, _ | 1, _ | 2, _ | 3, _ => rfl

/-- The four bytes are the four bytes of the `F-CHAN4` word, from which the channel byte is read back. -/
theorem encode_injective {c d : Byte} (h : Encoder.encode c = Encoder.encode d) : c = d := by
  simp only [Encoder.encode, List.cons.injEq, and_true] at h
  obtain ⟨h0, h1, h2, h3⟩ := h
  have hword : Encoder.chan4 c = Encoder.chan4 d := by simp only [Encoder.chan4, h0, h1, h2, h3]
  rw [← chan4Source_chan4 c, hword, chan4Source_chan4]

/-- Settles O4: by the bits of the lookup's byte; a byte with bit 7 set is not `0x00`, one with bit 0 clear is not `0xFF`. -/
theorem encodeIsInjective : Obligations.EncodeIsInjective := by
  refine ⟨fun c d => encode_injective, fun c k w h => ?_⟩
  obtain ⟨b7, b6, b5, b4, b3, b2, b1, b0⟩ := getLsbD_waveOf c k (encode_getElem?_eq_some h)
  refine ⟨b6.symm, b2.symm, b7, b4, b3, b0, b6.trans b5.symm, b2.trans b1.symm, ?_, ?_⟩
  · rintro rfl
    exact absurd b7 (by decide)
  · rintro rfl
    exact absurd b0 (by decide)

/-- Settles O1: each of the four bytes is the lookup of its group. -/
theorem encodeGivesTheFourWaveformBytes : Obligations.EncodeGivesTheFourWaveformBytes := by
  intro c s
  exact ⟨Encoder.waveOf c, rfl, fun k _ => ⟨toNat_lut _ _, bitsMsbFirst_lut _ _, rfl⟩⟩

/-- Settles O3: the bytes go out in order, and each is the cells of its two source bits. -/
theorem sourceBitsGoOutMostSignificantFirst : Obligations.SourceBitsGoOutMostSignificantFirst := by
  intro l c hl
  have hbytes (bs : List Byte) : wireBits l bs = bs.flatMap bitsMsbFirst := by simp [wireBits, hl]
  rw [hbytes]
  simp [Encoder.encode, Encoder.waveOf, bitsMsbFirst_lut_eq_cellBits, bitsMsbFirst_eq c]

end Sys2Proof.Machine
end

section
/-! PROOFS. The prerendering store (41_prerender_store.md): construction (R120), the two reads (R121, R122) and the colour write
(R123, R126), what `P.TRANSMIT` sends and leaves (R124, R125, R127, R129), and which commands change the buffers (R128). -/

namespace Sys2Proof.Machine

/-! ### Construction (R120, 42_streaming_store.md R140) -/

/-- Settles O5: the guards of `CONSTRUCT` ask for no store, and its body empties the buffers. -/
theorem constructZeroesTheStore : Obligations.ConstructZeroesTheStore := by
  refine ⟨fun s hv hb => ⟨s.zeroChan.answer .nothing, ?_, fun a => rfl, rfl, rfl⟩,
    fun s hv hb => ⟨s.zeroChan.zeroEnc.answer .nothing, ?_, fun a => ⟨rfl, rfl⟩, rfl, rfl, rfl⟩⟩
  · exact State.guarded_construct hv hb
  · exact State.guarded_construct hv hb

/-! ### The two reads (R121, R122, 42_streaming_store.md R141, R143) -/

section Reads

variable {s : State} {v : Variant}

theorem State.cmdReadRaw_in {idx : Nat} (h : s.accepts v) (hi : idx < 3 * s.cfg.n) :
    s.cmdReadRaw v idx = .next (s.answer (.byte (s.chan.read idx))) :=
  (State.guarded_of_accepts h).trans (State.readRaw_ok hi)

theorem State.cmdReadRaw_out {idx : Nat} (h : s.accepts v) (hi : 3 * s.cfg.n ≤ idx) :
    s.cmdReadRaw v idx = .fault .slotIndexOutOfRange :=
  (State.guarded_of_accepts h).trans (State.readRaw_out hi)

theorem State.cmdReadColour_in {i : Nat} (h : s.accepts v) (hi : i < s.cfg.n) :
    s.cmdReadColour v i = .next (s.answer (.colour (s.colourAt v i))) :=
  (State.guarded_of_accepts h).trans (State.readColour_ok hi)

theorem State.cmdReadColour_out {i : Nat} (h : s.accepts v) (hi : s.cfg.n ≤ i) :
    s.cmdReadColour v i = .fault .pixelIndexOutOfRange :=
  (State.guarded_of_accepts h).trans (State.readColour_out hi)

end Reads

/-- Settles O9: both variants' `READ_RAW` are one command. -/
theorem readRawReturnsItsSlot : Obligations.ReadRawReturnsItsSlot := by
  intro s idx
  exact ⟨fun h => ⟨State.cmdReadRaw_in h, State.cmdReadRaw_out h⟩, fun h => ⟨State.cmdReadRaw_in h, State.cmdReadRaw_out h⟩⟩

/-- Settles O10: both variants' `READ_COLOR` are one command, with the variant's slot order. -/
theorem readColorUsesTheVariantsSlotOrder : Obligations.ReadColorUsesTheVariantsSlotOrder := by
  intro s i
  exact ⟨fun h => ⟨State.cmdReadColour_in h, State.cmdReadColour_out h⟩,
    fun h => ⟨State.cmdReadColour_in h, State.cmdReadColour_out h⟩⟩

/-! ### The colour write (R123) -/

section ColourWrite

variable {s : State} {i : Nat} {c : Colour}

/-- What a slot reads after a colour is stored: the pixel's three slots hold it, every other slot is as before. -/
theorem State.colourSet_chan_read (h : s.chan.wf = true) (a : Nat) :
    (s.colourSet i c).chan.read a =
      if 3 * i ≤ a ∧ a < 3 * i + 3 then (slotBytes .P c).getD (a - 3 * i) 0 else s.chan.read a :=
  Memory.read_writeList h a

theorem State.colourSet_chan_read_slot (h : s.chan.wf = true) {k : Nat} (hk : k < 3) :
    (s.colourSet i c).chan.read (3 * i + k) = (slotBytes .P c).getD k 0 := by
  rw [State.colourSet_chan_read h, if_pos (by omega), Nat.add_sub_cancel_left]

theorem State.colourSet_chan_read_other (h : s.chan.wf = true) {a : Nat} (ha : a < 3 * i ∨ 3 * i + 3 ≤ a) :
    (s.colourSet i c).chan.read a = s.chan.read a := by
  rw [State.colourSet_chan_read h, if_neg (by omega)]

theorem State.colourAt_colourSet_same (h : s.chan.wf = true) : (s.colourSet i c).colourAt .P i = c := by
  have slot {k : Nat} (hk : k < 3) := State.colourSet_chan_read_slot (i := i) (c := c) h hk
  show colourOfSlots .P ((s.colourSet i c).chan.read (3 * i + 0)) _ _ = c
  rw [slot (by omega), pixelBase, slot (by omega), slot (by omega)]
  rfl

theorem State.colourAt_colourSet_other (h : s.chan.wf = true) {j : Nat} (hj : j ≠ i) :
    (s.colourSet i c).colourAt .P j = s.colourAt .P j :=
  State.colourAt_congr fun k hk => State.colourSet_chan_read_other h (by omega)

end ColourWrite

/-- Settles O12, by what each slot reads after the write. -/
theorem setColorWritesItsThreeSlots : Obligations.SetColorWritesItsThreeSlots := by
  intro s i c h
  refine ⟨fun hi hw => ⟨s.colourSet i c, exec_pSetColor_in h hi, ?_, ?_, ?_, fun a ha => ?_, ?_, rfl⟩, exec_pSetColor_out h⟩
  · exact State.colourSet_chan_read_slot (k := 0) hw (by omega)
  · exact State.colourSet_chan_read_slot (k := 1) hw (by omega)
  · exact State.colourSet_chan_read_slot (k := 2) hw (by omega)
  · exact State.colourSet_chan_read_other hw ha
  · exact Memory.writeList_wf hw

/-- Settles O14: the later state holds in the pixel's slots what the write left there, and the write left the other pixels. -/
theorem setThenReadColorReturnsTheColour : Obligations.SetThenReadColorReturnsTheColour := by
  intro s t u i c h hw ht hu hcfg hslots
  obtain ⟨hi, rfl⟩ := exec_pSetColor_next h ht
  have hiu : i < u.cfg.n := by rw [hcfg]; exact hi
  have read_raw {k : Nat} (hk : k < 3) : exec (.pReadRaw (3 * i + k)) u =
      .next { u with last := .returned (.byte ((slotBytes .P c).getD k 0)) } := by
    rw [← State.colourSet_chan_read_slot hw hk, ← hslots k hk]
    exact State.cmdReadRaw_in hu (by omega)
  refine ⟨?_, read_raw (k := 0) (by omega), read_raw (k := 1) (by omega), read_raw (k := 2) (by omega),
    fun j hj hjn => ⟨s.colourAt .P j, State.cmdReadColour_in h hjn, ?_⟩⟩
  · have hc : u.colourAt .P i = c := (State.colourAt_congr hslots).trans (State.colourAt_colourSet_same hw)
    rw [← hc]
    exact State.cmdReadColour_in hu hiu
  · rw [← State.colourAt_colourSet_other hw hj]
    exact State.cmdReadColour_in (h.colourSet i c) hjn

/-! ### The payload of `P.TRANSMIT` (R125, R129) -/

theorem Block.payloadLen_chan (b : Block) : b.payloadLen .chan = 12 * b.cfg.n := by
  show 4 * (3 * b.cfg.n) = 12 * b.cfg.n
  omega

theorem Encoder.encode_getElem? (c : Byte) {k : Nat} (hk : k < 4) : (Encoder.encode c)[k]? = some (Encoder.waveOf c k) := by
  match k, hk with
  | 0, _ | 1, _ | 2, _ | 3, _ => rfl

/-- The wire form of a pixel is the encoding of its three slots in ascending order. -/
theorem State.pixel12_colourAt (s : State) (i : Nat) :
    Encoder.pixel12 (s.colourAt .P i) = (s.chan.readList (3 * i) 3).flatMap Encoder.encode := rfl

/-- The encoded slots of the first `n` pixels, pixel by pixel. -/
theorem State.flatMap_encode_pixels (s : State) (n : Nat) :
    (s.chan.readList 0 (3 * n)).flatMap Encoder.encode =
      (List.range n).flatMap fun i => Encoder.pixel12 (s.colourAt .P i) := by
  induction n with
  | zero => rfl
  | succ n ih =>
    rw [Nat.mul_succ, Memory.readList_append, List.flatMap_append, ih, Nat.zero_add, ← State.pixel12_colourAt,
      List.range_succ, List.flatMap_append, List.flatMap_singleton]

/-- Settles O16, by the payload's length, its bytes, and its pixels. -/
theorem transmitPayloadIsTheEncodedStrip : Obligations.TransmitPayloadIsTheEncodedStrip := by
  intro s
  refine ⟨?_, fun p hp => ?_, State.flatMap_encode_pixels s s.cfg.n⟩
  · rw [Block.payload_length, Block.payloadLen_chan]
  · rw [Block.payload_getElem?, Block.payloadLen_chan, if_pos hp, Encoder.encode_getElem? _ (by omega)]
    rfl

/-! ### A transmission answered `ok` throughout (R124, 43_sequencer.md R176, R182) -/

/-- A transmission of `T` operations, all answered `ok`, issues its operation list and returns `Ok` after `T` steps. -/
theorem State.runs_startRun_ok {s : State} {src : Source} {vs : List Byte} {y : Xcvr}
    (hl : vs.length = s.cfg.opCount (s.payloadLen src)) (hx : s.xcvr.answersOk vs y) :
    (s.startRun src).runs vs.length = .next { s with
      seq := .idle, run := none, last := .returned .ok
      trace := okTrace (opList s.cfg (s.payload src)) vs, xcvr := y } := by
  have hne : vs ≠ [] := by
    rintro rfl
    simp [Config.opCount] at hl
  obtain ⟨ws, v, rfl⟩ : ∃ ws v, vs = ws ++ [v] := ⟨_, _, (List.dropLast_append_getLast hne).symm⟩
  obtain ⟨z, hz, hv, rfl⟩ := Xcvr.answersOk_append.mp hx
  rw [List.length_append, List.length_singleton] at hl ⊢
  have hlt : 0 + ws.length < s.cfg.opCount (s.payloadLen src) := by omega
  obtain ⟨u, hruns, hat, hu⟩ := State.runs_ok (State.at_startRun s src) hlt hz
  have hpay : u.payload src = s.payload src := by rw [hu]; exact Block.payload_congr src rfl rfl rfl rfl
  have hlen : u.payloadLen src = s.payloadLen src := by rw [hu]; exact Block.payloadLen_congr src rfl rfl
  have hcfg : u.cfg = s.cfg := by rw [hu]; rfl
  obtain ⟨op, hop, ho⟩ := hat.op
  have hstep := hat.step_last ho (by rw [hu]; exact hv) (by rw [hcfg, hlen]; omega)
  rw [State.runs_add hruns, State.runs_step hstep, State.runs_zero]
  rw [hpay, hcfg, Nat.zero_add] at hop
  rw [okTrace_append_singleton hop, hu]
  rfl

/-- `P.TRANSMIT` accepted. -/
theorem exec_pTransmit_of_accepts {s : State} (h : s.accepts .P) : exec .pTransmit s = .next (s.startRun .chan) :=
  State.guarded_of_accepts h

/-- Settles O35: between commands `seq` and `run` are already as the end of the transmission leaves them. -/
theorem transmitSendsTheWholeStripAndReturnsOk : Obligations.TransmitSendsTheWholeStripAndReturnsOk := by
  intro s h
  refine ⟨exec_pTransmit_of_accepts h, fun vs y hl hx => ⟨_, State.runs_startRun_ok ?_ hx, ?_⟩⟩
  · rw [hl, Block.payloadLen_chan, Config.opCount]
  · rw [← h.seq_idle, ← h.run_none]

/-! ### Which commands change the buffers (R128, 42_streaming_store.md R152) -/

/-- `chan`, `enc` and the cursor are as they were. -/
def State.keepsBuffers (s t : State) : Prop := t.chan = s.chan ∧ t.enc = s.enc ∧ t.cursor = s.cursor

theorem State.transceive_keepsBuffers {s t : State} {op : XcvrOp} (h : s.transceive op = .next t) : s.keepsBuffers t := by
  rw [State.transceive_frame h]
  exact ⟨rfl, rfl, rfl⟩

theorem State.readRaw_keepsBuffers {s t : State} {idx : Nat} (h : s.readRaw idx = .next t) : s.keepsBuffers t := by
  obtain ⟨bs, -, h⟩ := orFault_next h
  obtain rfl := Host.Outcome.next.inj h
  exact ⟨rfl, rfl, rfl⟩

theorem State.readColour_keepsBuffers {s t : State} {v : Variant} {i : Nat} (h : s.readColour v i = .next t) :
    s.keepsBuffers t := by
  obtain ⟨_, -, h⟩ := orFault_next h
  obtain rfl := Host.Outcome.next.inj h
  exact ⟨rfl, rfl, rfl⟩

/-- A command that changes a buffer was not refused: the machine has its variant, and its body ran. -/
theorem State.guarded_keepsBuffers_or {s t : State} {v : Variant} {b : Bool} {r : Result} (h : s.guarded v b r = .next t) :
    s.keepsBuffers t ∨ (s.cfg.variant = v ∧ r = .next t) := by
  rcases State.guarded_next h with ⟨why, rfl⟩ | ⟨hv, -, -, hr⟩
  · exact .inl ⟨rfl, rfl, rfl⟩
  · exact .inr ⟨hv, hr⟩

/-- The instructions that write a buffer, each in its variant, with what they leave of `enc` and the cursor. -/
inductive BufferWrite (s t : State) : Instr → Prop where
  | pConstruct (hv : s.cfg.variant = .P) (he : t.enc = s.enc) (hk : t.cursor = s.cursor) : BufferWrite s t .pConstruct
  | pSetColor (i : Nat) (c : Colour) (hv : s.cfg.variant = .P) (he : t.enc = s.enc) (hk : t.cursor = s.cursor) :
      BufferWrite s t (.pSetColor i c)
  | sWriteRaw (idx : Nat) (v : Byte) (hv : s.cfg.variant = .S) (he : t.enc = s.enc) (hk : t.cursor = s.cursor) :
      BufferWrite s t (.sWriteRaw idx v)
  | sConstruct (hv : s.cfg.variant = .S) : BufferWrite s t .sConstruct
  | sWriteAll (cs : List Colour) (hv : s.cfg.variant = .S) : BufferWrite s t (.sWriteAll cs)

/-- Every instruction leaves the buffers alone or is one of those that write them. -/
theorem exec_keepsBuffers_or {i : Instr} {s t : State} (h : exec i s = .next t) : s.keepsBuffers t ∨ BufferWrite s t i := by
  have ended {r : Response} (h : (.next (s.answer r) : Result) = .next t) : s.keepsBuffers t := by
    obtain rfl := Host.Outcome.next.inj h
    exact ⟨rfl, rfl, rfl⟩
  cases i with
  | pConstruct =>
    refine (State.guarded_keepsBuffers_or h).imp_right fun ⟨hv, hr⟩ => ?_
    obtain rfl := Host.Outcome.next.inj hr
    exact .pConstruct hv rfl rfl
  | pReadRaw idx => exact .inl ((State.guarded_keepsBuffers_or h).elim id fun hr => State.readRaw_keepsBuffers hr.2)
  | sReadRaw idx => exact .inl ((State.guarded_keepsBuffers_or h).elim id fun hr => State.readRaw_keepsBuffers hr.2)
  | pReadColor px => exact .inl ((State.guarded_keepsBuffers_or h).elim id fun hr => State.readColour_keepsBuffers hr.2)
  | sReadColor px => exact .inl ((State.guarded_keepsBuffers_or h).elim id fun hr => State.readColour_keepsBuffers hr.2)
  | pSetColor px c =>
    refine (State.guarded_keepsBuffers_or h).imp_right fun ⟨hv, hr⟩ => ?_
    obtain ⟨_, -, hr⟩ := orFault_next hr
    obtain ⟨s', hs', hr⟩ := orFault_next hr
    obtain ⟨-, rfl⟩ := State.memWrite_eq_ok hs'
    obtain rfl := Host.Outcome.next.inj hr
    exact .pSetColor px c hv rfl rfl
  | sWriteRaw idx v =>
    refine (State.guarded_keepsBuffers_or h).imp_right fun ⟨hv, hr⟩ => ?_
    obtain ⟨s', hs', hr⟩ := orFault_next hr
    obtain ⟨-, rfl⟩ := State.memWrite_eq_ok hs'
    obtain rfl := Host.Outcome.next.inj hr
    exact .sWriteRaw idx v hv rfl rfl
  | pTransmit =>
    refine .inl ((State.guarded_keepsBuffers_or h).elim id fun ⟨_, hr⟩ => ?_)
    obtain rfl := Host.Outcome.next.inj hr
    exact ⟨rfl, rfl, rfl⟩
  | sConstruct => exact (State.guarded_keepsBuffers_or h).imp_right fun hr => .sConstruct hr.1
  | sWriteAll cs => exact (State.guarded_keepsBuffers_or h).imp_right fun hr => .sWriteAll cs hr.1
  | reservedOp w =>
    obtain rfl := Host.Outcome.next.inj h
    exact .inl ⟨rfl, rfl, rfl⟩
  | wave00 | wave01 | wave10 | wave11 | wave | encodeChan => exact .inl (ended h)
  | xcvrSend b => exact .inl (State.transceive_keepsBuffers h)
  | xcvrRecv => exact .inl (State.transceive_keepsBuffers h)
  | seqRun p =>
    have h' : execSeqRun p s = .next t := h
    unfold execSeqRun at h'
    split at h'
    · cases h'
    · obtain rfl := Host.Outcome.next.inj h'
      exact .inl ⟨rfl, rfl, rfl⟩

/-- Settles O22: an instruction that changed a buffer is one of those that write it, in its variant. -/
theorem onlyTheseCommandsChangeTheBuffers : Obligations.OnlyTheseCommandsChangeTheBuffers := by
  intro i s t h
  have same {p : Prop} (he : t.enc = s.enc) (hk : t.cursor = s.cursor) (hne : t.enc ≠ s.enc ∨ t.cursor ≠ s.cursor) : p :=
    hne.elim (absurd he) (absurd hk)
  rcases exec_keepsBuffers_or h with ⟨hc, he, hk⟩ | hw
  · exact ⟨fun hne => absurd hc hne, same he hk⟩
  · cases hw with
    | pConstruct hv he hk => exact ⟨fun _ => .inl ⟨hv, .inl rfl⟩, same he hk⟩
    | pSetColor px c hv he hk => exact ⟨fun _ => .inl ⟨hv, .inr ⟨px, c, rfl⟩⟩, same he hk⟩
    | sWriteRaw idx v hv he hk => exact ⟨fun _ => .inr ⟨hv, .inr (.inl ⟨idx, v, rfl⟩)⟩, same he hk⟩
    | sConstruct hv => exact ⟨fun _ => .inr ⟨hv, .inl rfl⟩, fun _ => ⟨hv, .inl rfl⟩⟩
    | sWriteAll cs hv => exact ⟨fun _ => .inr ⟨hv, .inr (.inr ⟨cs, rfl⟩)⟩, fun _ => ⟨hv, .inr ⟨cs, rfl⟩⟩⟩

/-! ### What a running transmission leaves (R127) -/

/-- Settles O43: while a command runs a step is one transceiver operation, which writes neither the store nor the ports. -/
theorem transmissionLeavesTheStoreAlone : Obligations.TransmissionLeavesTheStoreAlone := by
  intro s t hb h
  rcases step_next h with rfl | ⟨op, -, -, hx⟩ | ⟨_, _, _, hn, -⟩ | ⟨_, _, _, hn, -⟩
  · exact ⟨rfl, rfl, rfl, rfl, rfl, rfl⟩
  · rw [State.transceive_frame hx]
    exact ⟨rfl, rfl, rfl, rfl, rfl, rfl⟩
  · rw [hb] at hn; cases hn
  · rw [hb] at hn; cases hn

end Sys2Proof.Machine
end

section
/-! PROOFS. The streaming store (42_streaming_store.md): the raw write (R142), and `S.WRITE_ALL` (R144 to R151): its fill, its faults
(R150), the colours read back (R153), and its transmission. -/

namespace Sys2Proof.Machine

/-! ### The raw write (R142) -/

/-- The state `S.WRITE_RAW` leaves: one slot written, nothing answered. -/
def State.rawWritten (s : State) (idx : Nat) (v : Byte) : State :=
  { s with chan := s.chan.write idx v, last := .returned .nothing }

theorem exec_sWriteRaw_in {s : State} {idx : Nat} {v : Byte} (h : s.accepts .S) (hi : idx < 3 * s.cfg.n) :
    exec (.sWriteRaw idx v) s = .next (s.rawWritten idx v) := by
  show State.guarded s .S true _ = _
  rw [State.guarded_of_accepts h, State.memWrite_ok hi]
  rfl

theorem exec_sWriteRaw_out {s : State} {idx : Nat} {v : Byte} (h : s.accepts .S) (hi : 3 * s.cfg.n ≤ idx) :
    exec (.sWriteRaw idx v) s = .fault .slotIndexOutOfRange := by
  show State.guarded s .S true _ = _
  rw [State.guarded_of_accepts h, State.memWrite_out (Nat.lt_succ_of_le hi)]
  rfl

/-- Settles O13, by what each slot reads after the write. -/
theorem writeRawWritesItsOneSlot : Obligations.WriteRawWritesItsOneSlot := by
  intro s idx v h
  refine ⟨fun hi hw => ⟨s.rawWritten idx v, exec_sWriteRaw_in h hi, ?_, fun a ha => ?_, Memory.write_wf hw, rfl⟩,
    exec_sWriteRaw_out h⟩
  · exact (Memory.read_write hw idx).trans (if_pos rfl)
  · exact (Memory.read_write hw a).trans (if_neg ha)

/-! ### The fill of `S.WRITE_ALL` (R144 to R147, R151) -/

/-- The state the fill of `S.WRITE_ALL` leaves: from cursor 0 (R147), every colour stored and encoded. -/
def State.allWritten (s : State) (cs : List Colour) : State := State.filled { s with cursor := 0 } 0 cs

theorem exec_sWriteAll_fits {s : State} {cs : List Colour} (h : s.accepts .S) (hf : s.fits cs) :
    exec (.sWriteAll cs) s = .next ((s.allWritten cs).startRun .enc) := by
  show State.guarded s .S true _ = _
  rw [State.guarded_of_accepts h, State.fill_ok fun _ => by simpa [State.fits] using hf]
  rfl

/-- Colours that do not fit: the first of them that fails has a pixel and no room in `enc`, or no pixel. -/
theorem exec_sWriteAll_not_fits {s : State} {cs : List Colour} (h : s.accepts .S) (hf : ¬s.fits cs) :
    exec (.sWriteAll cs) s =
      .fault (if s.cfg.encCap < 12 * min cs.length s.cfg.n then .encOverflow else .tooManyColors) := by
  have hne : cs ≠ [] := by
    rintro rfl
    exact hf ⟨Nat.zero_le _, Nat.zero_le _⟩
  have hpixel : (0 < s.cfg.n ∧ s.cfg.encCap < 12 * min cs.length s.cfg.n) ↔
      s.cfg.encCap < 12 * min cs.length s.cfg.n := by omega
  show State.guarded s .S true _ = _
  rw [State.guarded_of_accepts h, State.fill_error hne (by simpa [State.fits] using hf)]
  simp only [orFault, Nat.zero_add, Nat.sub_zero, hpixel]

/-- An accepted `S.WRITE_ALL` that answers a state had colours that fit, and started its transmission after the fill. -/
theorem exec_sWriteAll_next {s t : State} {cs : List Colour} (h : s.accepts .S) (ht : exec (.sWriteAll cs) s = .next t) :
    s.fits cs ∧ t = (s.allWritten cs).startRun .enc := by
  by_cases hf : s.fits cs
  · rw [exec_sWriteAll_fits h hf] at ht
    exact ⟨hf, (Host.Outcome.next.inj ht).symm⟩
  · rw [exec_sWriteAll_not_fits h hf] at ht
    cases ht

section Fill

variable {s : State} {cs : List Colour} {i : Nat} {c : Colour}

theorem State.allWritten_cursor : (s.allWritten cs).cursor = 12 * cs.length := Nat.zero_add _

theorem State.allWritten_chan_slot (hw : s.chan.wf = true) (hi : cs[i]? = some c) {k : Nat} (hk : k < 3) :
    (s.allWritten cs).chan.read (3 * i + k) = (slotBytes .S c).getD k 0 := by
  rw [List.getD_eq_getElem?_getD]
  exact State.filled_chan_read (s := { s with cursor := 0 }) hw hi hk

theorem State.allWritten_chan_rest (hw : s.chan.wf = true) {a : Nat} (ha : 3 * cs.length ≤ a) :
    (s.allWritten cs).chan.read a = s.chan.read a :=
  State.filled_chan_rest (s := { s with cursor := 0 }) hw ha

theorem State.colourAt_allWritten (hw : s.chan.wf = true) (hi : cs[i]? = some c) :
    (s.allWritten cs).colourAt .S i = c := by
  have slot {k : Nat} (hk : k < 3) := State.allWritten_chan_slot hw hi hk
  show colourOfSlots .S ((s.allWritten cs).chan.read (3 * i + 0)) _ _ = c
  rw [slot (by omega), pixelBase, slot (by omega), slot (by omega)]
  rfl

theorem State.colourAt_allWritten_rest (hw : s.chan.wf = true) (hi : cs.length ≤ i) :
    (s.allWritten cs).colourAt .S i = s.colourAt .S i :=
  State.colourAt_congr fun k _ => State.allWritten_chan_rest hw (by omega)

/-- The payload of the transmission that `S.WRITE_ALL` starts: the wire forms of its colours in order (R145, R148). -/
theorem State.payload_allWritten (hw : s.enc.wf = true) :
    (s.allWritten cs).payload .enc = cs.flatMap Encoder.pixel12 := by
  show Memory.readList (s.allWritten cs).enc 0 (s.allWritten cs).cursor = _
  rw [State.allWritten_cursor]
  exact State.filled_enc_prefix (s := { s with cursor := 0 }) hw rfl

/-- The twelve bytes of one colour in the filled part of `enc`. -/
theorem State.allWritten_enc_pixel (hw : s.enc.wf = true) (hi : cs[i]? = some c) :
    (s.allWritten cs).enc.readList (12 * i) 12 = Encoder.pixel12 c := by
  have hlt : i < cs.length := (List.getElem?_eq_some_iff.mp hi).1
  apply List.ext_getElem?
  intro k
  rw [Memory.readList_getElem?]
  by_cases hk : k < 12
  · have hbyte : ((s.allWritten cs).payload .enc)[12 * i + k]? = (Encoder.pixel12 c)[k]? := by
      rw [State.payload_allWritten hw, flatMap_pixel12_getElem? _ _ _ hk, hi]
      rfl
    rw [Block.payload_getElem?, Block.payloadLen, State.allWritten_cursor, if_pos (by omega)] at hbyte
    rw [if_pos hk]
    exact hbyte
  · rw [if_neg hk, List.getElem?_eq_none (Nat.not_lt.mp hk)]

theorem State.allWritten_enc_rest (hw : s.enc.wf = true) {a : Nat} (ha : 12 * cs.length ≤ a) :
    (s.allWritten cs).enc.read a = s.enc.read a :=
  State.filled_enc_rest (s := { s with cursor := 0 }) hw rfl ha

end Fill

/-- Settles O18, by what the fill leaves in each buffer. -/
theorem writeAllFillsBothBuffers : Obligations.WriteAllFillsBothBuffers := by
  intro s cs h hf hc he
  refine ⟨(s.allWritten cs).startRun .enc, exec_sWriteAll_fits h hf, State.allWritten_cursor,
    fun i c hi => ⟨State.allWritten_enc_pixel he hi, ?_, ?_, ?_⟩,
    fun a ha => State.allWritten_enc_rest he ha, fun a ha => State.allWritten_chan_rest hc ha,
    Memory.writeList_wf hc, Memory.writeList_wf he, rfl⟩
  · exact State.allWritten_chan_slot (k := 0) hc hi (by omega)
  · exact State.allWritten_chan_slot (k := 1) hc hi (by omega)
  · exact State.allWritten_chan_slot (k := 2) hc hi (by omega)

/-- Settles O19: the fill of no colour only rewinds the cursor, and the frame of an empty payload is its pads. -/
theorem emptyWriteAllSendsOnlyPadBytes : Obligations.EmptyWriteAllSendsOnlyPadBytes := by
  intro s h
  refine ⟨(s.allWritten []).startRun .enc, exec_sWriteAll_fits h ⟨Nat.zero_le _, Nat.zero_le _⟩, rfl, rfl, ?_⟩
  show sentBytes (opList s.cfg []) = _
  rw [sentBytes_opList, frameBytes, List.append_nil, List.replicate_append_replicate, ← List.replicate_succ]
  congr 1
  omega

/-- Settles O20: in both clauses the colours do not fit, and the capacity of `enc` decides which fault it is. -/
theorem writeAllFaultsWhenItDoesNotFit : Obligations.WriteAllFaultsWhenItDoesNotFit := by
  intro s cs h
  refine ⟨fun hn he => ?_, fun he => ?_⟩
  · have hf : ¬s.fits cs := fun hf => absurd hf.1 (by omega)
    rw [exec_sWriteAll_not_fits h hf, if_neg (by omega)]
  · have hf : ¬s.fits cs := fun hf => absurd hf.2 (by omega)
    rw [exec_sWriteAll_not_fits h hf, if_pos he]

/-! ### The colours read back (R153) -/

/-- Settles O21: the later state holds the slots the fill left, and they hold the colours, or what they held before. -/
theorem writeAllThenReadColorReturnsTheColour : Obligations.WriteAllThenReadColorReturnsTheColour := by
  intro s t u cs h hw ht hu hcfg hchan
  obtain ⟨⟨hlen, -⟩, rfl⟩ := exec_sWriteAll_next h ht
  rw [State.startRun_chan] at hchan
  have hn : u.cfg.n = s.cfg.n := congrArg Config.n hcfg
  have hcol (i : Nat) : u.colourAt .S i = (s.allWritten cs).colourAt .S i :=
    State.colourAt_congr fun _ _ => by rw [hchan]
  refine ⟨fun i c hi => ?_, fun i hi hin => ⟨s.colourAt .S i, State.cmdReadColour_in h hin, ?_⟩⟩
  · have hlt : i < cs.length := (List.getElem?_eq_some_iff.mp hi).1
    have read_raw {k : Nat} (hk : k < 3) : exec (.sReadRaw (3 * i + k)) u =
        .next { u with last := .returned (.byte ((slotBytes .S c).getD k 0)) } := by
      rw [← State.allWritten_chan_slot hw hi hk, ← hchan]
      exact State.cmdReadRaw_in hu (by omega)
    refine ⟨?_, read_raw (k := 0) (by omega), read_raw (k := 1) (by omega), read_raw (k := 2) (by omega)⟩
    rw [← State.colourAt_allWritten hw hi, ← hcol]
    exact State.cmdReadColour_in hu (by omega)
  · rw [← State.colourAt_allWritten_rest hw hi, ← hcol]
    exact State.cmdReadColour_in hu (by omega)

/-! ### The transmission of the colours (R148, R149) -/

/-- Settles O37: the transmission is over the filled part of `enc`, and between commands `seq` and `run` are already as its end leaves
them. -/
theorem writeAllSendsItsColoursAndReturnsOk : Obligations.WriteAllSendsItsColoursAndReturnsOk := by
  intro s cs vs y h hf hc he hl hx
  have hops : vs.length = (s.allWritten cs).cfg.opCount ((s.allWritten cs).payloadLen .enc) := by
    rw [hl, Block.payloadLen, State.allWritten_cursor]
    rfl
  refine ⟨_, _, exec_sWriteAll_fits h hf, State.runs_startRun_ok hops hx, ?_⟩
  rw [State.payload_allWritten he, State.allWritten_cursor, ← h.seq_idle, ← h.run_none]
  rfl

end Sys2Proof.Machine
end

section
/-! PROOFS. The Transmission Sequencer (43_sequencer.md): its operation list (R171, R191, R193), one operation and where it leads
(R177 to R190), the run of a transmission that is answered `ok`, fails or stalls (R178, R191, R192, R194, R208), and the bytes it
receives (R181). -/

namespace Sys2Proof.Machine

/-! ### The operation list (R171, R191, R193) -/

/-- The lead byte is a `SEND` alone and the final drain a `RECV` alone; the other bytes are cycles. -/
theorem countP_opList (cfg : Config) (p : List Byte) :
    (opList cfg p).countP isSend = 1 + cfg.leadCycles + p.length + cfg.trailCycles ∧
    (opList cfg p).countP (fun op => !isSend op) = cfg.leadCycles + p.length + cfg.trailCycles + 1 := by
  simp only [opList, List.countP_cons, List.countP_append, List.countP_nil, (countP_cyclesOf _).1, (countP_cyclesOf _).2,
    List.length_replicate, isSend_send, isSend_recv]
  exact ⟨by simp; omega, by simp; omega⟩

/-- Settles O26, by the counts of the two kinds and the length. -/
theorem sendsAndReceivesAreEqualInNumber : Obligations.SendsAndReceivesAreEqualInNumber := by
  intro cfg p
  obtain ⟨hsend, hrecv⟩ := countP_opList cfg p
  exact ⟨hsend, hrecv, opList_length cfg p⟩

/-- Settles O27: the table of the rule bounds each phase by the last index in it, and `opList_getElem?` counts from its first. -/
theorem operationListIsTheTable : Obligations.OperationListIsTheTable := by
  intro cfg p j hj
  rw [opList_getElem? cfg p j hj]
  by_cases h0 : j = 0
  · rw [if_pos h0, if_pos h0]
  rw [if_neg h0, if_neg h0]
  by_cases hlead : j ≤ 2 * cfg.leadCycles
  · have parity : (j - 1) % 2 = 0 ↔ j % 2 = 1 := by omega
    rw [if_pos hlead, if_pos (by omega)]
    simp only [parity]
  rw [if_neg hlead, if_neg (by omega)]
  by_cases hpayload : j ≤ 2 * cfg.leadCycles + 2 * p.length
  · rw [if_pos hpayload, if_pos (by omega), Nat.sub_right_comm]
  rw [if_neg hpayload, if_neg (by omega)]
  by_cases htrail : j ≤ 2 * cfg.leadCycles + 2 * p.length + 2 * cfg.trailCycles
  · have parity : (j - 1 - 2 * cfg.leadCycles - 2 * p.length) % 2 = 0 ↔ j % 2 = 1 := by omega
    rw [if_pos htrail, if_pos (by omega)]
    simp only [parity]
  · rw [if_neg htrail, if_neg (by omega)]

/-- The `SEND`s stand at index 0 and at the odd indices before the last. -/
theorem opList_send_iff (cfg : Config) (p : List Byte) (j : Nat) :
    (∃ b, (opList cfg p)[j]? = some (.send b)) ↔
      j < cfg.opCount p.length ∧ (j = 0 ∨ (j % 2 = 1 ∧ j ≠ cfg.opCount p.length - 1)) := by
  by_cases hj : j < cfg.opCount p.length
  · have hs := isSend_opList_getElem? cfg p j hj
    obtain ⟨op, hop, hd⟩ := Option.map_eq_some_iff.mp hs
    cases op with
    | send b => simpa [hop, hj] using hd
    | recv => simpa [hop, hj] using hd
  · have hnone : (opList cfg p)[j]? = none := List.getElem?_eq_none (by rw [opList_length]; omega)
    simp [hnone, hj]

/-- The `RECV`s stand at the even indices but 0, and at the last one. -/
theorem opList_recv_iff (cfg : Config) (p : List Byte) (j : Nat) :
    (opList cfg p)[j]? = some .recv ↔
      j < cfg.opCount p.length ∧ j ≠ 0 ∧ (j % 2 = 0 ∨ j = cfg.opCount p.length - 1) := by
  have hsend := opList_send_iff cfg p j
  by_cases hj : j < cfg.opCount p.length
  · have hl : j < (opList cfg p).length := by rwa [opList_length]
    rw [List.getElem?_eq_getElem hl] at hsend ⊢
    cases hop : (opList cfg p)[j] with
    | send b => simp [hop] at hsend ⊢; omega
    | recv => simp [hop] at hsend ⊢; omega
  · have hnone : (opList cfg p)[j]? = none := List.getElem?_eq_none (by rw [opList_length]; omega)
    simp [hnone, hj]

/-- Settles O28: with the indices of the `SEND`s and `RECV`s known, each clause is about parity. -/
theorem everySendIsPairedWithItsReceive : Obligations.EverySendIsPairedWithItsReceive := by
  intro cfg p
  have hT : cfg.opCount p.length = 2 * (1 + cfg.leadCycles + p.length + cfg.trailCycles) := rfl
  rw [List.getLast?_eq_getElem?, opList_length]
  refine ⟨rfl, ?_, fun j b h1 hb => ?_, fun j hj hr => ?_, fun h2 => ⟨?_, ?_⟩⟩
  · rw [opList_recv_iff]; omega
  · have hs := (opList_send_iff cfg p j).mp ⟨b, hb⟩
    rw [opList_recv_iff]; omega
  · rw [opList_recv_iff] at hr
    exact ⟨by omega, (opList_send_iff cfg p (j - 1)).mpr (by omega)⟩
  · rw [opList_send_iff]; omega
  · rw [opList_recv_iff]; omega

/-! ### One operation and where it leads (R177 to R190) -/

/-- Where a `SEND` is issued: before the lead byte, or in the first half of a cycle (R184, R186 to R188). -/
theorem Block.seq_of_issues_send {s : Block} {b : Byte} (h : s.issues = some (.send b)) :
    (s.seq = .idle ∧ b = 0x00) ∨ ∃ p c, s.seq = .pos p c .tx ∧ p ≠ .leadByteSent ∧ p ≠ .draining := by
  obtain ⟨src, hr⟩ := Block.run_of_issues h
  simp only [Block.issues, hr] at h
  split at h
  case h_1 hq => cases h; exact .inl ⟨hq, rfl⟩
  case h_3 hq => exact .inr ⟨_, _, hq, by simp, by simp⟩
  case h_4 hq => exact .inr ⟨_, _, hq, by simp, by simp⟩
  case h_5 hq => exact .inr ⟨_, _, hq, by simp, by simp⟩
  all_goals cases h

/-- The answer to a `SEND` leads to the `RECV` of its cycle (R186 to R188). -/
theorem Seq.afterOk_tx {p : Phase} {c : Nat} (h : p ≠ .draining) : (Seq.pos p c .tx).afterOk = .pos p c .rx := by
  cases p with
  | draining => exact absurd rfl h
  | leadByteSent | optionalIdlePad | payloadStreaming | trailingPad => rfl

/-- A `RECV` is issued in the second half of a cycle, or at the final drain (R186 to R189). -/
theorem Block.half_of_issues_recv {s : Block} {p : Phase} {c : Nat} {h : Half} (hi : s.issues = some .recv)
    (hq : s.seq = .pos p c h) : h = .rx := by
  obtain ⟨src, hr⟩ := Block.run_of_issues hi
  cases h with
  | rx => rfl
  | tx => cases p <;> simp [Block.issues, hr, hq] at hi

/-- The position after an `ok` answer is found from the fields that the trace entry leaves as they are. -/
theorem Block.nextSeq_logged {s : Block} {src : Source} (hr : s.run = some src) (op : XcvrOp) (r : Reply) :
    (s.logged op r).nextSeq = Seq.settle s.cfg (s.payloadLen src) s.seq.afterOk := by
  simp only [Block.nextSeq, Block.logged_run, hr, Block.logged_cfg, Block.logged_seq]
  rw [Block.payloadLen_congr (s := s) (t := s.logged op r) src rfl rfl]

section Answered

variable {s : State} {src : Source} {op : XcvrOp} {v : Byte}

/-- Answered `ok`, anywhere but at the final drain: the trace grows, and the position moves. -/
theorem State.transceive_ok (hr : s.run = some src) (hi : s.issues = some op) (ha : s.xcvr.answer = .ok v)
    (hq : ∀ c h, s.seq ≠ .pos .draining c h) :
    s.transceive op = .next { s with
      seq := Seq.settle s.cfg (s.payloadLen src) s.seq.afterOk
      trace := s.trace ++ [{ op := op, reply := okReply op v }], xcvr := s.xcvr.answered } := by
  rw [State.transceive_issued hi, ha]
  simp only [Block.respond, orFault]
  rw [Block.advance_other (s := s.logged op (okReply op v)) hr hq, Block.nextSeq_logged hr]
  rfl

/-- Answered `ok`, at the final drain: the command returns `Ok` (R176, R189). -/
theorem State.transceive_ok_draining {c : Nat} {h : Half} (hr : s.run = some src) (hi : s.issues = some op)
    (ha : s.xcvr.answer = .ok v) (hq : s.seq = .pos .draining c h) :
    s.transceive op = .next { s with
      seq := .idle, run := none, last := .returned .ok
      trace := s.trace ++ [{ op := op, reply := okReply op v }], xcvr := s.xcvr.answered } := by
  rw [State.transceive_issued hi, ha]
  simp only [Block.respond, orFault]
  rw [Block.advance_draining (s := s.logged op (okReply op v)) hr hq]
  rfl

/-- Answered `err(e)`, anywhere: the command returns `Err(e)` (R177, R190). -/
theorem State.transceive_err {e : ChannelError} (hi : s.issues = some op) (ha : s.xcvr.answer = .err e) :
    s.transceive op = .next { s with
      seq := .idle, run := none, last := .returned (.err e)
      trace := s.trace ++ [{ op := op, reply := .err e }], xcvr := s.xcvr.answered } := by
  rw [State.transceive_issued hi, ha]
  rfl

end Answered

/-- Settles O30: a `SEND` is never the final drain, so the position moves, past the lead byte or to the second half of the
cycle. -/
theorem sendAnsweredOkAdvancesTheSequencer : Obligations.SendAnsweredOkAdvancesTheSequencer := by
  intro s src b v hr hi ha
  rcases Block.seq_of_issues_send hi with ⟨hq, rfl⟩ | ⟨p, c, hq, hlead, hdrain⟩
  · refine ⟨_, State.transceive_ok hr hi ha (by simp [hq]), rfl, by simp [hq], fun _ => ⟨rfl, ?_⟩⟩
    rw [hq]
    exact Seq.settle_first _ _ _ _
  · refine ⟨_, State.transceive_ok hr hi ha (by simp [hq, hdrain]), rfl, fun p' c' hq' => ?_, by simp [hq]⟩
    obtain ⟨rfl, rfl⟩ : p = p' ∧ c = c' := by simpa [hq] using hq'
    rw [hq, Seq.afterOk_tx hdrain]
    exact Seq.settle_tx_to_rx _ _ _ _ hlead

/-- Settles O31: the answer to the final drain ends the run; any other ends a cycle, and its phase says what follows. -/
theorem recvAnsweredOkAdvancesTheSequencer : Obligations.RecvAnsweredOkAdvancesTheSequencer := by
  intro s src v hr hi ha
  by_cases hd : ∃ c h, s.seq = .pos .draining c h
  · obtain ⟨c, h, hq⟩ := hd
    exact ⟨_, State.transceive_ok_draining hr hi ha hq, rfl, fun _ _ _ => ⟨rfl, rfl, rfl⟩, fun hn => absurd hq (hn c h),
      by simp [hq], by simp [hq], by simp [hq]⟩
  · have hn : ∀ c h, s.seq ≠ .pos .draining c h := fun c h hq => hd ⟨c, h, hq⟩
    refine ⟨_, State.transceive_ok hr hi ha hn, rfl, fun c h hq => absurd hq (hn c h), fun _ => ⟨rfl, rfl⟩,
      fun c h hq => ?_, fun c h hq => ?_, fun c h hq => ?_⟩
    all_goals
      obtain rfl := Block.half_of_issues_recv hi hq
      rw [hq]
    · exact Seq.settle_lead _ _ _
    · exact Seq.settle_payload _ _ _
    · exact Seq.settle_trail _ _ _

/-- Settles O32: the abort does not look at the position or at the kind of operation. -/
theorem transceiverErrorAbortsAtOnce : Obligations.TransceiverErrorAbortsAtOnce := by
  intro s e ha
  exact ⟨fun b hi => State.transceive_err hi ha, fun hi => State.transceive_err hi ha⟩

/-- Settles O45, by the two places a step's words come from. -/
theorem stepRunsTheSequencersOperation : Obligations.StepRunsTheSequencersOperation := by
  refine ⟨fun s b hb hi => step_operation hb hi, fun s hb hi => step_operation hb hi, fun s ws us i hb hu hd => ?_⟩
  exact step_words (State.fetch_unit hb hu) hd

/-! ### A transmission answered `ok` throughout (R182, R191) -/

theorem exec_seqRun_of_idle {s : State} (p : List Byte) (hb : s.busy = false) :
    exec (.seqRun p) s = .next (s.startRun (.given p)) := by
  show execSeqRun p s = _
  rw [execSeqRun, if_neg (by simp [hb])]

/-- Settles O34, by the run of a transmission answered `ok` throughout; every byte sent has been answered by a `RECV`. -/
theorem seqRunSendsItsPayloadAndReturnsOk : Obligations.SeqRunSendsItsPayloadAndReturnsOk := by
  intro s p hb
  refine ⟨exec_seqRun_of_idle p hb, fun vs y hl hx => ⟨_, hl ▸ State.runs_startRun_ok hl hx, rfl, ?_⟩⟩
  show inflightOf (okTrace (opList s.cfg p) vs) = 0
  rw [inflightOf_okTrace _ _ hl.le, hl]
  simp [inflightAt]

theorem sendCount_eq_countP_opsOf (t : List Event) : sendCount t = (opsOf t).countP isSend := by
  rw [opsOf, List.countP_map]
  rfl

theorem recvCount_eq_countP_opsOf (t : List Event) : recvCount t = (opsOf t).countP (fun op => !isSend op) := by
  rw [opsOf, List.countP_map]
  rfl

/-- The trace of an operation list answered to its end is the whole list. -/
theorem opsOf_okTrace_full {ops : List XcvrOp} {vs : List Byte} (h : vs.length = ops.length) :
    opsOf (okTrace ops vs) = ops := by
  rw [opsOf_okTrace h.le, h, List.take_length]

/-- An `S.WRITE_ALL` that starts its transmission has filled twelve bytes for each colour (42_streaming_store.md R148). -/
theorem payloadLen_of_sWriteAll {s t : State} {cs : List Colour} (h : exec (.sWriteAll cs) s = .next t)
    (hl : t.last = .running) : t.payloadLen .enc = 12 * cs.length := by
  rcases State.guarded_next h with ⟨why, rfl⟩ | ⟨-, -, -, hbody⟩
  · cases hl
  · obtain ⟨s', hs', hnext⟩ := orFault_next hbody
    obtain ⟨rfl, -⟩ := State.fill_eq_ok hs'
    obtain rfl := Host.Outcome.next.inj hnext
    exact Nat.zero_add _

/-- A transmission whose `T` operations have all been answered `ok` has as many sends and receives as its operation list. -/
theorem counts_okTrace_opList {cfg : Config} {p vs : List Byte} (hl : vs.length = cfg.opCount p.length) :
    sendCount (okTrace (opList cfg p) vs) = 1 + cfg.leadCycles + p.length + cfg.trailCycles ∧
    recvCount (okTrace (opList cfg p) vs) = cfg.leadCycles + p.length + cfg.trailCycles + 1 ∧
    (okTrace (opList cfg p) vs).length = 2 * (1 + cfg.leadCycles + p.length + cfg.trailCycles) := by
  have hops : vs.length = (opList cfg p).length := by rw [opList_length, hl]
  rw [sendCount_eq_countP_opsOf, recvCount_eq_countP_opsOf, opsOf_okTrace_full hops, okTrace_length hops.le]
  exact ⟨(countP_opList cfg p).1, (countP_opList cfg p).2, hl⟩

/-- Settles O36: the trace is the whole operation list, whose counts are known. -/
theorem successfulRunCounts : Obligations.SuccessfulRunCounts := by
  refine ⟨fun s src vs y hl hx => ⟨_, State.runs_startRun_ok hl hx, rfl, ?_⟩, fun s => Block.payloadLen_chan s.toBlock,
    fun s t cs => payloadLen_of_sWriteAll⟩
  rw [← Block.payload_length] at hl ⊢
  obtain ⟨hsend, hrecv, hlen⟩ := counts_okTrace_opList hl
  refine ⟨hsend, hrecv, hsend.trans (Eq.trans (by omega) hrecv.symm), hlen,
    fun v n hc => hsend.trans ?_, fun v n hc => hsend.trans ?_⟩
  · have hlead : s.cfg.leadCycles = 0 := by rw [hc]; rfl
    have htrail : s.cfg.trailCycles = 140 := by rw [hc]; rfl
    omega
  · have hlead : s.cfg.leadCycles = 140 := by rw [hc]; rfl
    have htrail : s.cfg.trailCycles = 140 := by rw [hc]; rfl
    omega

/-! ### A transmission answered `ok` so far (R192, R194) -/

/-- The machine before operation `vs.length` of a transmission from `src`: the operations before it answered `ok` (with the bytes
`vs`), the transceiver now `y`. -/
def State.partWay (s : State) (src : Source) (vs : List Byte) (y : Xcvr) : State :=
  { s with
    run := some src, last := .running
    seq := Seq.ofIndex s.cfg (s.payloadLen src) vs.length
    trace := okTrace (opList s.cfg (s.payload src)) vs
    xcvr := y }

section PartWay

variable {s : State} {src : Source} {vs : List Byte} {y : Xcvr}

theorem State.partWay_payload : (s.partWay src vs y).payload src = s.payload src := Block.payload_congr src rfl rfl rfl rfl

theorem State.at_partWay (hj : vs.length < s.cfg.opCount (s.payloadLen src)) : (s.partWay src vs y).at src vs.length := by
  have hlen : (s.partWay src vs y).payloadLen src = s.payloadLen src := Block.payloadLen_congr src rfl rfl
  refine ⟨rfl, ?_, ?_⟩
  · rw [hlen]; exact hj
  · rw [hlen]; rfl

/-- A started transmission gets there. -/
theorem State.runs_startRun_partWay (hj : vs.length < s.cfg.opCount (s.payloadLen src)) (hx : s.xcvr.answersOk vs y) :
    (s.startRun src).runs vs.length = .next (s.partWay src vs y) := by
  have hpay : (s.startRun src).payload src = s.payload src := Block.payload_congr src rfl rfl rfl rfl
  have hlen : (s.startRun src).payloadLen src = s.payloadLen src := Block.payloadLen_congr src rfl rfl
  obtain ⟨u, hruns, -, hu⟩ := State.runs_ok (State.at_startRun s src) (by rw [hlen, Nat.zero_add]; exact hj) hx
  rw [hruns, hu, hpay, hlen, Nat.zero_add]
  rfl

theorem State.partWay_issues (hj : vs.length < s.cfg.opCount (s.payloadLen src)) :
    (s.partWay src vs y).issues = (opList s.cfg (s.payload src))[vs.length]? := by
  rw [(State.at_partWay hj).issues, State.partWay_payload]
  rfl

theorem State.partWay_inflight (hj : vs.length < s.cfg.opCount (s.payloadLen src)) :
    (s.partWay src vs y).inflight = inflightAt (s.cfg.opCount (s.payloadLen src)) vs.length := by
  rw [← Block.payload_length] at hj ⊢
  exact inflightOf_okTrace _ _ hj.le

end PartWay

/-- Before an operation is issued the last case of `inflightAt`, that all have been answered, does not arise. -/
theorem inflightAt_of_lt {total j : Nat} (h : j < total) :
    inflightAt total j = if j = 0 then 0 else if j = total - 1 then 1 else if j % 2 = 1 then 1 else 2 := by
  rw [inflightAt, if_neg (show ¬j = total by omega)]

/-- Settles O39, by the state part way. -/
theorem positionFollowsTheOperationIndex : Obligations.PositionFollowsTheOperationIndex := by
  intro s src vs y hj hx
  have hat := State.at_partWay (y := y) hj
  obtain ⟨op, -, ho⟩ := hat.op
  refine ⟨s.partWay src vs y, State.runs_startRun_partWay hj hx, rfl, State.partWay_issues hj, rfl, ?_, rfl,
    fun hnever => hat.step_never ho hnever⟩
  rw [State.partWay_inflight hj, inflightAt_of_lt hj]

/-- The count before an operation by its kind, not by its index's parity (R192): only a `RECV` other than the final drain finds two
bytes in flight. -/
theorem inflightAt_eq_of_op {cfg : Config} {p : List Byte} {j : Nat} {op : XcvrOp} (hop : (opList cfg p)[j]? = some op) :
    inflightAt (cfg.opCount p.length) j =
      if j = 0 then 0 else if isSend op = true then 1 else if j = cfg.opCount p.length - 1 then 1 else 2 := by
  have hj : j < cfg.opCount p.length := by
    rw [← opList_length]; exact (List.getElem?_eq_some_iff.mp hop).1
  have hs := isSend_opList_getElem? cfg p j hj
  rw [hop, Option.map_some] at hs
  rw [inflightAt_of_lt hj, Option.some.inj hs]
  simp only [decide_eq_true_eq]
  split_ifs <;> omega

/-- Settles O38: the state part way, and one operation more, answered `err(e)`, which counts nothing in flight. -/
theorem firstErrorEndsTheTransmission : Obligations.FirstErrorEndsTheTransmission := by
  intro s src vs e y hj hx he
  have hat := State.at_partWay (y := y) hj
  obtain ⟨op, hop, ho⟩ := hat.op
  replace hop : (opList s.cfg (s.payload src))[vs.length]? = some op := by rw [← hop, State.partWay_payload]; rfl
  refine ⟨op, _, hop, ?_, rfl, ?_⟩
  · rw [State.runs_add (State.runs_startRun_partWay hj hx), State.runs_step (hat.step_err ho he)]
    rfl
  · show inflightOf ((s.partWay src vs y).trace ++ [{ op := op, reply := .err e }]) = _
    have failed_counts_nothing : inflightOf [{ op := op, reply := .err e }] = 0 := rfl
    rw [inflightOf_append, failed_counts_nothing, add_zero, ← Block.inflight, State.partWay_inflight hj,
      ← Block.payload_length, inflightAt_eq_of_op hop]

theorem Seq.inflightBefore_tx (p : Phase) (c : Nat) : (Seq.pos p c .tx).inflightBefore = 1 := by cases p <;> rfl

theorem Seq.inflightBefore_rx {p : Phase} (c : Nat) (h : p ≠ .draining) : (Seq.pos p c .rx).inflightBefore = 2 := by
  cases p with
  | draining => exact absurd rfl h
  | leadByteSent | optionalIdlePad | payloadStreaming | trailingPad => rfl

/-- In the cycles of a phase one byte is in flight before the `SEND`, two before the `RECV`. The cycle's index `m` in the phase and
the operation's index `j` have different parities. -/
theorem Seq.inflightBefore_cycle {p : Phase} {c m j : Nat} (hp : p ≠ .draining) (hj : j % 2 = 1 ↔ m % 2 = 0) :
    (Seq.pos p c (Half.ofParity m)).inflightBefore = if j % 2 = 1 then 1 else 2 := by
  simp only [hj]
  rcases Nat.mod_two_eq_zero_or_one m with h | h
  · rw [Half.ofParity_even h, if_pos h, Seq.inflightBefore_tx]
  · rw [Half.ofParity_odd h, if_neg (by omega), Seq.inflightBefore_rx c hp]

/-- What is in flight before the operation of an index is what its position says. -/
theorem Seq.inflightBefore_ofIndex {cfg : Config} {len j : Nat} (hj : j < cfg.opCount len) :
    (Seq.ofIndex cfg len j).inflightBefore = inflightAt (cfg.opCount len) j := by
  rw [inflightAt_of_lt hj]
  have hT : cfg.opCount len = 2 * (1 + cfg.leadCycles + len + cfg.trailCycles) := rfl
  rcases Seq.index_cases cfg len j hj with rfl | ⟨m, hm, rfl⟩ | ⟨m, hm, rfl⟩ | ⟨m, hm, rfl⟩ | rfl
  · rfl
  · rw [Seq.ofIndex_lead _ _ _ hm, if_neg (by omega), if_neg (by omega)]
    exact Seq.inflightBefore_cycle (by simp) (by omega)
  · rw [Seq.ofIndex_payload _ _ _ hm, if_neg (by omega), if_neg (by omega)]
    exact Seq.inflightBefore_cycle (by simp) (by omega)
  · rw [Seq.ofIndex_trail _ _ _ hm, if_neg (by omega), if_neg (by omega)]
    exact Seq.inflightBefore_cycle (by simp) (by omega)
  · rw [Seq.ofIndex_drain, if_neg (by omega), if_pos (by omega)]
    rfl

/-- Under the invariant the trace of a transmission is as long as its position's index says. -/
theorem State.Inv.trace_length {s : State} {src : Source} (h : s.Inv) (hr : s.run = some src) :
    s.trace.length = s.seq.index s.cfg (s.payloadLen src) := by
  have hlt := (h.at_index hr).lt
  have hlen := congrArg List.length (h.trace src hr).1
  rw [opsOf, List.length_map, List.length_take, opList_length, Block.payload_length] at hlen
  omega

/-- Settles O41: under the invariant the trace is the operations before the position's index, all answered `ok`. -/
theorem inflightFollowsThePosition : Obligations.InflightFollowsThePosition := by
  intro s h hrun
  obtain ⟨src, hr⟩ := Option.isSome_iff_exists.mp hrun
  have hat := h.at_index hr
  obtain ⟨htrace, hok⟩ := h.trace src hr
  rw [← h.trace_length hr] at htrace hat
  have hlt := hat.lt
  rw [hat.seq, Seq.inflightBefore_ofIndex hlt]
  rw [← Block.payload_length] at hlt ⊢
  exact inflightOf_take _ _ hok htrace hlt.le

/-! ### Every transmission ends, or is stuck (R178) -/

/-- `k` steps lead to an end of the command, with `Ok` or `Err(e)`, or to an operation that is never answered. -/
def State.endsWithin (s : State) (k : Nat) : Prop :=
  (∃ u, s.runs k = .next u ∧ u.run = none ∧ u.seq = .idle ∧
    (u.last = .returned .ok ∨ ∃ e, u.last = .returned (.err e))) ∨
  s.runs k = .fault .stalled

theorem State.endsWithin_of_step {s t : State} {k : Nat} (h : step s = .next t) (ht : t.endsWithin k) :
    s.endsWithin (k + 1) := by
  rwa [State.endsWithin, State.runs_step h]

/-- A step that ends the command, with nothing at the ports: the machine then stays as it is. -/
theorem State.endsWithin_of_ended {s t : State} {k : Nat} (h : step s = .next t) (hr : t.run = none) (hq : t.seq = .idle)
    (hl : t.last = .returned .ok ∨ ∃ e, t.last = .returned (.err e)) (hu : t.units = []) (hc : t.cmds = []) :
    s.endsWithin (k + 1) := by
  refine .inl ⟨t, ?_, hr, hq, hl⟩
  rw [State.runs_step h, State.runs_rest (State.step_rest hr hq hu hc)]

/-- From before operation `j` the remaining operations are enough: each answer is one operation less, or the end. -/
theorem State.at.endsWithin {s : State} {src : Source} {j k : Nat} (h : s.at src j)
    (hk : j + k = s.cfg.opCount (s.payloadLen src)) (hc : s.cmds = []) (hu : s.units = []) : s.endsWithin k := by
  induction k generalizing s j with
  | zero => exact absurd h.lt (by omega)
  | succ k ih =>
    obtain ⟨op, -, ho⟩ := h.op
    cases ha : s.xcvr.answer with
    | ok v =>
      rcases Nat.lt_or_eq_of_le (Nat.succ_le_of_lt h.lt) with hj | hj
      · refine State.endsWithin_of_step (h.step_ok ho ha hj) ?_
        exact ih (j := j + 1) ⟨h.run, hj, rfl⟩ (by rw [Nat.add_right_comm]; exact hk) hc hu
      · exact State.endsWithin_of_ended (h.step_last ho ha hj) rfl rfl (.inl rfl) hu hc
    | err e => exact State.endsWithin_of_ended (h.step_err ho ha) rfl rfl (.inr ⟨e, rfl⟩) hu hc
    | never => exact .inr (State.runs_fault (h.step_never ho ha))

/-- Settles O40: a started transmission is before operation 0 of `T`. -/
theorem transmissionEndsInOneOfThreeWays : Obligations.TransmissionEndsInOneOfThreeWays := by
  intro s src hc hu
  exact (State.at_startRun s src).endsWithin (Nat.zero_add _) hc hu

/-! ### The received bytes (R181) -/

/-- Settles O48, as the renaming that changes received bytes alone. -/
theorem receivedBytesHaveNoEffect : Obligations.ReceivedBytesHaveNoEffect := by
  intro f s
  rw [State.mapReceived_eq_renaming]
  exact Renaming.step_state { byte := f } s

end Sys2Proof.Machine
end

section
/-! PROOFS. The ends of a command that are no success (60_exceptions.md): an index out of range (R203, R204), a command given while
another runs (R206), an operation never answered or not the sequencer's (R208, R222), and the reference oracles (R224). -/

namespace Sys2Proof.Machine

/-! ### The reference oracles (R224) -/

section StartRun

variable (s : State) (src : Source)

@[simp] theorem State.startRun_payload : (s.startRun src).payload src = s.payload src := Block.payload_congr src rfl rfl rfl rfl

@[simp] theorem State.startRun_payloadLen : (s.startRun src).payloadLen src = s.payloadLen src :=
  Block.payloadLen_congr src rfl rfl

end StartRun

/-- Settles O59: both commands start their transmission before the transceiver they found, and each oracle answers `ok` until it
fails. -/
theorem referenceOraclesGiveTheirEnds : Obligations.ReferenceOraclesGiveTheirEnds := by
  intro s t src v l j e after h
  obtain ⟨s', rfl, hxcvr⟩ : ∃ s' : State, t = s'.startRun src ∧ s'.xcvr = s.xcvr := by
    rcases h with ⟨hacc, rfl, ht⟩ | ⟨hacc, rfl, cs, ht⟩
    · exact ⟨s, Host.Outcome.next.inj (ht.symm.trans (exec_pTransmit_of_accepts hacc)), rfl⟩
    · exact ⟨s.allWritten cs, (exec_sWriteAll_next hacc ht).2, rfl⟩
  rw [State.startRun_payload, State.startRun_payloadLen, State.startRun_cfg, ← hxcvr]
  refine ⟨fun halways => ?_, fun hfail hj => ?_⟩
  · have hok := Xcvr.alwaysOk_answersOk v l (s'.cfg.opCount (s'.payloadLen src))
    rw [← halways] at hok
    have hruns := State.runs_startRun_ok List.length_replicate hok
    rw [List.length_replicate] at hruns
    exact ⟨_, hruns, rfl, rfl⟩
  · have hok := Xcvr.failAt_answersOk j e after
    rw [← hfail] at hok
    obtain ⟨op, u, hop, hruns, hu, -⟩ := firstErrorEndsTheTransmission s' src _ e _
      (by rw [List.length_replicate]; exact hj) hok (Xcvr.failAt_zero_answer e after)
    rw [List.length_replicate] at hop hruns
    exact ⟨u, op, hruns, by rw [hu], hop, by rw [hu]⟩

/-! ### Indices out of range (R203, R204) -/

/-- A command that completes below its bound, and faults from it on, faults nowhere else. -/
theorem bound_le_iff_fault {bound k : Nat} {r : Result} {t : State} {f : Fault} (hin : k < bound → r = .next t)
    (hout : bound ≤ k → r = .fault f) : bound ≤ k ↔ r = .fault f := by
  refine ⟨hout, fun hr => Nat.le_of_not_lt fun hk => ?_⟩
  cases hr.symm.trans (hin hk)

/-- Settles O11: what each command does below its bound and from it on. -/
theorem outOfRangeIndicesFault : Obligations.OutOfRangeIndicesFault := by
  intro s k v c
  refine ⟨fun h => ⟨?_, ?_, ?_⟩, fun h => ⟨?_, ?_, ?_⟩⟩
  · exact bound_le_iff_fault (State.cmdReadRaw_in h) (State.cmdReadRaw_out h)
  · exact bound_le_iff_fault (State.cmdReadColour_in h) (State.cmdReadColour_out h)
  · exact bound_le_iff_fault (exec_pSetColor_in h) (exec_pSetColor_out h)
  · exact bound_le_iff_fault (State.cmdReadRaw_in h) (State.cmdReadRaw_out h)
  · exact bound_le_iff_fault (exec_sWriteRaw_in h) (exec_sWriteRaw_out h)
  · exact bound_le_iff_fault (State.cmdReadColour_in h) (State.cmdReadColour_out h)

/-! ### A command while another runs (R206) -/

/-- The guards of a command that is not refused, in a store that exists: another command runs. -/
theorem State.guarded_of_busy {s : State} {v : Variant} {n : Bool} {r : Result} (hv : s.cfg.variant = v)
    (hc : s.constructed = true) (hb : s.busy = true) : s.guarded v n r = .fault .concurrentAccess := by
  simp [State.guarded, hv, hc, hb]

/-- Settles O25, by the guards. -/
theorem commandDuringACommandFaults : Obligations.CommandDuringACommandFaults := by
  intro i s hi hc hb
  obtain ⟨n, r, he, -⟩ := exec_of_row hi s
  rw [he]
  exact State.guarded_of_busy rfl hc hb

/-! ### Operations that stop the machine (R208, R222) -/

/-- The sequencer's own operation, never answered (R208). -/
theorem State.transceive_never {s : State} {op : XcvrOp} (hi : s.issues = some op) (ha : s.xcvr.answer = .never) :
    s.transceive op = .fault .stalled := by
  rw [State.transceive_issued hi, ha]
  rfl

/-- An operation that is not the sequencer's (R222, 93_implementation_defined.md U4). -/
theorem State.transceive_foreign {s : State} {op : XcvrOp} (hi : s.issues ≠ some op) :
    s.transceive op = .fault .concurrentAccess := by
  rw [State.transceive, if_neg hi]

/-- Settles O33: both rows are the operation itself. -/
theorem unansweredOrForeignOperationsStop : Obligations.UnansweredOrForeignOperationsStop := by
  intro s op i h
  have hexec : exec i s = s.transceive op := by
    rcases h with ⟨b, rfl, rfl⟩ | ⟨rfl, rfl⟩
    · rfl
    · rfl
  rw [hexec]
  exact ⟨State.transceive_never, State.transceive_foreign⟩

end Sys2Proof.Machine
end

section
/-! PROOFS. Reset and hazards (70_reset_and_hazards.md): the state after reset (R230), the reset line (R231), the first transmission
of a new store (R234), the link configuration (R236, R237), and the durations at a clock rate (R250 to R253). -/

namespace Sys2Proof.Machine

/-! ### The reset state (R230) -/

/-- Settles O7: the fields as `State.reset` writes them, and the guards of `P.CONSTRUCT`, whose body rewrites the same values. -/
theorem resetIsAConstructedStore : Obligations.ResetIsAConstructedStore := by
  refine ⟨rfl, rfl, rfl, rfl, fun a => ⟨Memory.read_nil a, Memory.read_nil a⟩, rfl, rfl, rfl, ?_⟩
  exact State.guarded_construct (s := State.reset) rfl rfl

/-- Settles O52: no command runs, and the store is empty. -/
theorem resetMeetsTheInvariant : Obligations.ResetMeetsTheInvariant :=
  State.inv_of_ended rfl nofun (fun _ => rfl) (State.buffersOk_of_nil rfl fun _ => rfl) (State.cursorOk_of_zero fun _ => rfl)

/-! ### The reset line (R231) -/

theorem State.resetLine_of_busy {s : State} (hb : s.busy = true) : s.resetLine = .fault .concurrentAccess := if_pos hb

/-- During a command `CONSTRUCT` faults, also where there is no store (60_exceptions.md R206). -/
theorem State.guarded_construct_of_busy {s : State} {v : Variant} {r : Result} (hv : s.cfg.variant = v)
    (hb : s.busy = true) : s.guarded v false r = .fault .concurrentAccess := by
  simp [State.guarded, hv, hb]

/-- The reset line passes the guards of `CONSTRUCT`: with the effect `r` of the instance's variant, it is the guarded `r`. -/
theorem State.resetLine_eq_guarded {s : State} {v : Variant} {r : Result} (hv : s.cfg.variant = v)
    (hr : s.busy = false → s.resetLine = r) : s.resetLine = s.guarded v false r := by
  cases hb : s.busy with
  | true => rw [State.resetLine_of_busy hb, State.guarded_construct_of_busy hv hb]
  | false => rw [hr hb, State.guarded_construct hv hb]

/-- Settles O8, by the guards of each variant's `CONSTRUCT`. -/
theorem resetLineIsConstruct : Obligations.ResetLineIsConstruct := by
  intro s
  refine ⟨fun hv => State.resetLine_eq_guarded hv fun hb => ?_, fun hv => State.resetLine_eq_guarded hv fun hb => ?_,
    State.resetLine_of_busy⟩
  · simp [State.resetLine, hb, hv]
  · simp [State.resetLine, hb, hv]

/-! ### The first transmission of a new store (R234) -/

/-- Between commands, a store just constructed accepts the commands of its variant. -/
theorem State.accepts_zeroChan_answer {s : State} {v : Variant} {r : Response} (hv : s.cfg.variant = v)
    (hb : s.busy = false) : (s.zeroChan.answer r).accepts v :=
  ⟨hv, rfl, by simp [Block.busy, Block.run_none_of_idle hb]⟩

/-- An empty buffer reads zero throughout (10_state.md R40). -/
theorem Memory.readList_nil (a n : Nat) : Memory.readList [] a n = List.replicate n 0x00 := by
  induction n generalizing a with
  | zero => rfl
  | succ n ih => rw [Memory.readList, ih, Memory.read_nil, List.replicate_succ]

/-- The encoding of black (40_encoder.md R112). -/
theorem Encoder.encode_zero : Encoder.encode 0x00 = List.replicate 4 0x88 := by decide

/-- A strip of zeros is sent as `12 * N` bytes `0x88`. -/
theorem Block.payload_chan_of_nil {b : Block} (h : b.chan = []) :
    b.payload .chan = List.replicate (12 * b.cfg.n) 0x88 := by
  refine List.eq_replicate_iff.mpr ⟨?_, fun w hw => ?_⟩
  · rw [Block.payload_length, Block.payloadLen_chan]
  · rw [Block.payload, Block.payloadP, h, Memory.readList_nil] at hw
    obtain ⟨c, hc, hw⟩ := List.mem_flatMap.mp hw
    rw [List.eq_of_mem_replicate hc, Encoder.encode_zero] at hw
    exact List.eq_of_mem_replicate hw

/-- Settles O17: `P.CONSTRUCT` leaves an accepting store with an empty buffer. -/
theorem freshStoreSendsBlack : Obligations.FreshStoreSendsBlack := by
  intro s hv hb
  exact ⟨s.zeroChan.answer .nothing, State.guarded_construct hv hb,
    exec_pTransmit_of_accepts (State.accepts_zeroChan_answer hv hb), Block.payload_chan_of_nil rfl⟩

/-! ### The link configuration (R236, R237) -/

/-- Settles O50, as the renaming that changes the link configuration alone. -/
theorem linkConfigurationHasNoEffect : Obligations.LinkConfigurationHasNoEffect := by
  intro l s
  have h : (State.withLink · l) = Renaming.state { link := fun _ => l } := funext (State.withLink_eq_renaming l)
  rw [h, State.withLink_eq_renaming]
  exact Renaming.step_state { link := fun _ => l } s

/-! ### Durations (R250 to R253) -/

/-- A frame lasts eight serial bits for each byte that its transmission sends (R252). -/
theorem Link.frameTime_eq_sentBytes (l : Link) (cfg : Config) (p : List Byte) :
    l.frameTime cfg p.length = 8 * (sentBytes (opList cfg p)).length / l.clockHz := by
  rw [sentBytes_opList, frameBytes_length, Link.frameTime, Link.bitTime, Config.frameBits, mul_one_div, Nat.cast_mul,
    Nat.cast_ofNat]

/-- Settles O57: the bits of a cell, the bytes of a frame, and the two examples of R252 and R253. -/
theorem frameTimeIsProportionalToItsBytes : Obligations.FrameTimeIsProportionalToItsBytes := by
  refine ⟨fun l => ?_, Link.frameTime_eq_sentBytes, fun l hl => ?_, fun l hl => ?_⟩
  · simp [Link.highTime, Link.lowTime, Link.bitTime, cellBits, div_eq_mul_inv]
  · have hbits : Config.frameBits (Config.ofStraps .P 3 false) 36 = 1416 := rfl
    rw [Link.frameTime, hbits, Link.bitTime, hl]
    norm_num
  · rw [Link.padTime, Link.bitTime, hl]
    norm_num

end Sys2Proof.Machine
end
